-- ==== Sys2Proof/Word.lean ====
section
/-!
DEFINITION. The words and the plain data types of the host port and of the bus: bytes, line levels, pin
identifiers, numbers, operands, and what the host presents to the machine.
-/

namespace Sys2Proof

/-- A byte is 8 bits (R9). -/
abbrev Byte := BitVec 8

/-- A line level: `LOW` = 0, `HIGH` = 1 (R10). -/
inductive Level where
  | low
  | high
  deriving DecidableEq, Repr, Inhabited

/-- The level that carries a bit (R10). -/
def Level.ofBit (b : Bool) : Level := bif b then .high else .low

/-- The bit a level carries (R10). -/
def Level.toBit : Level → Bool
  | .low => false
  | .high => true

/-- A pin identifier: an opaque value, only ever compared (R25, R58). Entry 20. -/
structure PinId where
  id : Nat
  deriving DecidableEq, Repr

/-- The `value` operand of DISPNUM: an exact rational, or one of the three non-finite values (R97). -/
inductive Number where
  | finite (q : Rat)
  | posInf
  | negInf
  | nan
  deriving DecidableEq, Repr

/-- One operand as the host presents it, with the types of R58. -/
inductive Operand where
  /-- `PinId` -/
  | pin (p : PinId)
  /-- `u8` -/
  | byte (v : Byte)
  /-- `u8 or absent` -/
  | byteOrAbsent (v : Option Byte)
  /-- `u1` -/
  | bit (on : Bool)
  /-- `Rational or non-finite` -/
  | number (v : Number)
  /-- `list of u8` -/
  | text (cs : List Byte)
  /-- `natural number` -/
  | natural (n : Nat)
  deriving DecidableEq, Repr

/-- A host operation as presented: an opcode byte with a list of typed operands (R57). -/
structure HostOp where
  op   : Byte
  args : List Operand
  deriving DecidableEq, Repr

/-- What reaches the machine from outside: a host operation on the host port (R18), or the bytes of one
frame, between a start and a stop condition, delivered to the reference receiver (R121). Entry 18. -/
inductive Presented where
  | op (o : HostOp)
  | frame (bytes : List Byte)
  deriving DecidableEq, Repr

/-- `MODE` of the reference receiver (R122). -/
inductive RxMode where
  | auto
  | fixed
  deriving DecidableEq, Repr, Inhabited

end Sys2Proof
end

