-- ==== Sys2Proof/Config.lean ====
section
/-!
DEFINITION. What is fixed for the machine: the constants and parameters of R8, the tables of R83 and R85, and
the free values (constants without a body, of which nothing can be evaluated or proved).
-/

namespace Sys2Proof.Config

/-- Digit positions, fixed (R7). -/
def digitCount : Nat := 4

/-- Input code of the blank sentinel (R8, D5). Entry 15. -/
def blankCode : Byte := 0x7F

/-- Input code DISPNUM writes for the minus glyph (R8, D5). Entry 15. -/
def minusCode : Byte := 0x2D

/-- `CLK_PIN` of R8: the clock pin the model names where no operand does. Entries 2, 19. -/
def clkPin : PinId := ⟨2⟩

/-- `DIO_PIN` of R8: the data pin the model names where no operand does. Entries 2, 19. -/
def dioPin : PinId := ⟨3⟩

/-- `NUMERAL_TABLE`: the segments of the inputs 0 to 15, bits 6:0 of R83's bytes (bit 7 is clear in each).
Entry 14. -/
def numeralTable : Vector (BitVec 7) 16 :=
  #v[0x3F, 0x06, 0x5B, 0x4F, 0x66, 0x6D, 0x7D, 0x07, 0x7F, 0x6F, 0x77, 0x7C, 0x39, 0x5E, 0x79, 0x71]

/-- `CHAR_REF`: the reference character table of the test vectors (R85), for tests only. A code that is not
listed is not recognized. -/
def charRef : List (Byte × BitVec 7) :=
  [(0x20, 0x00), (0x2D, 0x40), (0x5F, 0x08), (0x41, 0x77), (0x42, 0x7C), (0x62, 0x7C), (0x4F, 0x3F),
   (0x43, 0x39), (0x45, 0x79), (0x46, 0x71), (0x48, 0x76), (0x4C, 0x38), (0x64, 0x5E), (0x50, 0x73)]

/-- FREE VALUE. The glyphs of `CHAR_TABLE`, which is OPEN (R84, D7): any list of codes and 7-bit glyphs. The
constraints R84 (a) to (c) are built into how it is read (`Machine.charTable`). Entry 12. -/
opaque charGlyphs : List (Byte × BitVec 7)

/-- FREE VALUE. `HOST_INT_BITS`, which is OPEN (R8, D21). Entry 13. -/
opaque hostIntBits : Nat

/-- FREE VALUE. The environment's answer to a SAMPLE for which no answer is listed (R36). Entry 5. -/
opaque freeAnswer : Nat → Level

/-- FREE VALUE. Does the peripheral pull from event A1 on, and not only from A2, where no answer is listed? (R134)
Entry 5. -/
opaque freeEarly : Nat → Bool

/-- FREE VALUE. `draw_8()`: the payload bytes of an out-of-range DISPNUM (R99, U1). Entry 11. -/
opaque freeByte : Nat → Byte

/-- FREE VALUE. The level on the CLK line before its first write (R38, U7). Entry 4. -/
opaque openClk : Level

/-- FREE VALUE. The level on the DIO line before its first write (R38, U7). Entry 4. -/
opaque openDio : Level

/-- FREE VALUE. The level the receiver sees on a contended DIO line, by the number of the event (R16, U9). Entry 7. -/
opaque contentionLevel : Nat → Level

/-- FREE VALUE. `MODE` of the receiver at power-on and after havoc (R122, R126). Entry 16. -/
opaque freeMode : Nat → RxMode

/-- FREE VALUE. One byte of `RAM` of the receiver at power-on and after havoc, by draw and position (R122,
R126). Entry 16. -/
opaque freeRamByte : Nat → Nat → Byte

/-- `RAM[0..3]` of the receiver at power-on and after havoc: four free bytes. -/
def freeRam (n : Nat) : Vector Byte 4 := #v[freeRamByte n 0, freeRamByte n 1, freeRamByte n 2, freeRamByte n 3]

/-- FREE VALUE. `DISP_BRIGHT` of the receiver at power-on and after havoc (R122, R126). Entry 16. -/
opaque freeBright : Nat → BitVec 3

/-- FREE VALUE. `DISP_ON` of the receiver at power-on and after havoc (R122, R126). Entry 16. -/
opaque freeOn : Nat → Bool

/-- The parameters a model takes (R8). They are read-only: no operation writes them (R34). -/
structure Params where
  /-- `BIT_DELAY_US` -/
  bitDelayUs        : Nat
  /-- `DEFAULT_BRIGHTNESS` -/
  defaultBrightness : BitVec 3
  /-- `NUMERAL_TABLE`, 7 bits an entry: no table sets bit 7 (R83) -/
  numeralTable      : Vector (BitVec 7) 16
  /-- the recognized characters of `CHAR_TABLE` and their glyphs, 7 bits each: no table sets bit 7 (R84) -/
  charGlyphs        : List (Byte × BitVec 7)
  /-- `HOST_INT_BITS` -/
  hostIntBits       : Nat
  deriving DecidableEq, Repr

/-- The parameters of this spec (R8): the decided values, and free values where R8 says OPEN. Entry 14. -/
def params : Params where
  bitDelayUs := 50
  defaultBrightness := 2
  numeralTable := numeralTable
  charGlyphs := charGlyphs
  hostIntBits := hostIntBits

/-- The parameters of the test vectors: `HOST_INT_BITS` = 16 and `CHAR_REF` (95_test_vectors.md,
conventions). -/
def vectorParams : Params := { params with charGlyphs := charRef, hostIntBits := 16 }

end Sys2Proof.Config
end

