-- ==== Sys2Proof/Syntax.lean ====
section
/-!
DEFINITION. The instructions: one constructor for each row of the opcode table, 14 host operations (R58) and
4 wire commands (R64, R65, R66).
-/

namespace Sys2Proof

/-- An instruction of the opcode table, with its operands typed as R58 types them. A host operation's operands
may lie outside the ranges R58 admits: the machine refuses it then (R109). A wire command is one whole frame
as the reference receiver processes it (R123, R124, R125). -/
inductive Instr where
  /-- CONSTRUCT(clk, dio) (R90) -/
  | construct (clk dio : PinId)
  /-- INIT (R91) -/
  | init
  /-- CONFIGURE(b, dcmd, acmd) (R92); `none` is an absent operand -/
  | configure (b : Byte) (dcmd acmd : Option Byte)
  /-- SETPOINT(on) (R93) -/
  | setpoint (on : Bool)
  /-- WRITEALL(d0, d1, d2, d3) (R94) -/
  | writeall (d0 d1 d2 d3 : Byte)
  /-- WRITEONE(pos, d) (R95) -/
  | writeone (pos d : Byte)
  /-- CLEAR (R96) -/
  | clear
  /-- DISPNUM(value, dp, minus) (R101) -/
  | dispnum (value : Number) (dp : Byte) (minus : Bool)
  /-- DISPTEXT(text, ms) (R104) -/
  | disptext (text : List Byte) (ms : Nat)
  /-- START (R72) -/
  | start
  /-- STOP (R74) -/
  | stop
  /-- WRITEBYTE(v) (R76) -/
  | writebyte (v : Byte)
  /-- BITDELAY (R79) -/
  | bitdelay
  /-- ENCODE(c) (R80) -/
  | encode (c : Byte)
  /-- the frame `[0x40]` (R64, R123) -/
  | wireDataAuto
  /-- the frame `[0x44]` (R64, R123) -/
  | wireDataFixed
  /-- the frame `[0xC0 | p, payload…]` (R65, R124) -/
  | wireAddr (p : BitVec 2) (payload : List Byte)
  /-- the frame `[0x88 + b]` (R66, R125) -/
  | wireDispctrl (b : BitVec 3)
  deriving DecidableEq, Repr

end Sys2Proof
end

