-- ==== Sys2Proof/Decode.lean ====
section
/-!
DEFINITION. Decoding what is presented (the host port by R57, R58, R59; the wire by R64 to R66, R71, R126),
total and rejecting by name; the encoder written from the same tables; and the opcode table's own words.
-/

namespace Sys2Proof

/-- Why something presented is no instruction. -/
inductive DecodeError where
  /-- the opcode byte selects no operation (R59) -/
  | unknownOp
  /-- the operand list has not the shape the opcode fixes (R57) -/
  | operandShape
  /-- a frame of no bytes: the receiver does nothing with it (95_test_vectors.md section 2.6) -/
  | emptyFrame
  /-- a frame outside the source: an unnamed command, or an overlong command frame (R126) -/
  | foreignFrame
  deriving DecidableEq, Repr

/-- The data-write command bytes (R64). -/
def wireDataAutoByte : Byte := 0x40
def wireDataFixedByte : Byte := 0x44

/-- The address command byte of position `p`, `0xC0 | p` (R65). -/
def wireAddrByte (p : BitVec 2) : Byte := 0xC0 ||| p.setWidth 8

/-- The display-control command byte of brightness `b`, `0x88 + b` (R66). -/
def wireDispctrlByte (b : BitVec 3) : Byte := 0x88 + b.setWidth 8

/-- The host operation an opcode byte and its operands spell (R57, R58): the opcode byte alone decides the
operation, and the operands must have its shape. -/
def decodeOp (o : HostOp) : Except DecodeError Instr :=
  if o.op = 0x01 then
    match o.args with
    | [.pin clk, .pin dio] => .ok (.construct clk dio)
    | _ => .error .operandShape
  else if o.op = 0x02 then
    match o.args with
    | [] => .ok .init
    | _ => .error .operandShape
  else if o.op = 0x03 then
    match o.args with
    | [.byte b, .byteOrAbsent dcmd, .byteOrAbsent acmd] => .ok (.configure b dcmd acmd)
    | _ => .error .operandShape
  else if o.op = 0x04 then
    match o.args with
    | [.bit on] => .ok (.setpoint on)
    | _ => .error .operandShape
  else if o.op = 0x05 then
    match o.args with
    | [.byte d0, .byte d1, .byte d2, .byte d3] => .ok (.writeall d0 d1 d2 d3)
    | _ => .error .operandShape
  else if o.op = 0x06 then
    match o.args with
    | [.byte pos, .byte d] => .ok (.writeone pos d)
    | _ => .error .operandShape
  else if o.op = 0x07 then
    match o.args with
    | [] => .ok .clear
    | _ => .error .operandShape
  else if o.op = 0x08 then
    match o.args with
    | [.number v, .byte dp, .bit minus] => .ok (.dispnum v dp minus)
    | _ => .error .operandShape
  else if o.op = 0x09 then
    match o.args with
    | [.text cs, .natural ms] => .ok (.disptext cs ms)
    | _ => .error .operandShape
  else if o.op = 0x10 then
    match o.args with
    | [] => .ok .start
    | _ => .error .operandShape
  else if o.op = 0x11 then
    match o.args with
    | [] => .ok .stop
    | _ => .error .operandShape
  else if o.op = 0x12 then
    match o.args with
    | [.byte v] => .ok (.writebyte v)
    | _ => .error .operandShape
  else if o.op = 0x13 then
    match o.args with
    | [] => .ok .bitdelay
    | _ => .error .operandShape
  else if o.op = 0x14 then
    match o.args with
    | [.byte c] => .ok (.encode c)
    | _ => .error .operandShape
  else .error .unknownOp

/-- The wire command a frame's bytes spell (R64, R65, R66): the first byte is the command and the rest is
payload (R69). A data-command or display-control frame has one byte only (R126). -/
def decodeFrame : List Byte → Except DecodeError Instr
  | [] => .error .emptyFrame
  | c :: payload =>
    if c &&& 0xFC = 0xC0 then .ok (.wireAddr (c.extractLsb' 0 2) payload)
    else if payload ≠ [] then .error .foreignFrame
    else if c = wireDataAutoByte then .ok .wireDataAuto
    else if c = wireDataFixedByte then .ok .wireDataFixed
    else if c &&& 0xF8 = 0x88 then .ok (.wireDispctrl (c.extractLsb' 0 3))
    else .error .foreignFrame

/-- The instruction something presented spells, on the port it is presented to. -/
def decode : Presented → Except DecodeError Instr
  | .op o => decodeOp o
  | .frame bytes => decodeFrame bytes

/-- How an instruction is presented: its opcode byte with its operands (R58), or its frame (R69). -/
def encode : Instr → Presented
  | .construct clk dio => .op ⟨0x01, [.pin clk, .pin dio]⟩
  | .init => .op ⟨0x02, []⟩
  | .configure b dcmd acmd => .op ⟨0x03, [.byte b, .byteOrAbsent dcmd, .byteOrAbsent acmd]⟩
  | .setpoint on => .op ⟨0x04, [.bit on]⟩
  | .writeall d0 d1 d2 d3 => .op ⟨0x05, [.byte d0, .byte d1, .byte d2, .byte d3]⟩
  | .writeone pos d => .op ⟨0x06, [.byte pos, .byte d]⟩
  | .clear => .op ⟨0x07, []⟩
  | .dispnum v dp minus => .op ⟨0x08, [.number v, .byte dp, .bit minus]⟩
  | .disptext cs ms => .op ⟨0x09, [.text cs, .natural ms]⟩
  | .start => .op ⟨0x10, []⟩
  | .stop => .op ⟨0x11, []⟩
  | .writebyte v => .op ⟨0x12, [.byte v]⟩
  | .bitdelay => .op ⟨0x13, []⟩
  | .encode c => .op ⟨0x14, [.byte c]⟩
  | .wireDataAuto => .frame [wireDataAutoByte]
  | .wireDataFixed => .frame [wireDataFixedByte]
  | .wireAddr p payload => .frame (wireAddrByte p :: payload)
  | .wireDispctrl b => .frame [wireDispctrlByte b]

/-- Is the instruction a host operation (R58), not a wire command? -/
def Instr.isHostOp (i : Instr) : Bool :=
  match Sys2Proof.encode i with
  | .op _ => true
  | .frame _ => false

/-- The public operations, those the source offers to callers; START, STOP, WRITEBYTE, BITDELAY and ENCODE are
internal operations this spec also admits on the host port (R19). -/
def Instr.isPublic : Instr → Bool
  | .construct _ _ | .init | .writeall _ _ _ _ | .writeone _ _ | .dispnum _ _ _ | .disptext _ _ | .clear
  | .configure _ _ _ | .setpoint _ => true
  | .start | .stop | .writebyte _ | .bitdelay | .encode _ => false
  | .wireDataAuto | .wireDataFixed | .wireAddr _ _ | .wireDispctrl _ => false

/-- One row of the opcode table: the byte matches where `byte &&& mask = pattern`. -/
structure OpcodeRow where
  mnemonic : String
  mask     : Byte
  pattern  : Byte
  deriving DecidableEq, Repr

/-- The opcode table, row for row (opcode_table.json; R58, R64, R65, R66). -/
def opcodeTable : List OpcodeRow :=
  [⟨"CONSTRUCT", 0xFF, 0x01⟩, ⟨"INIT", 0xFF, 0x02⟩, ⟨"CONFIGURE", 0xFF, 0x03⟩, ⟨"SETPOINT", 0xFF, 0x04⟩,
   ⟨"WRITEALL", 0xFF, 0x05⟩, ⟨"WRITEONE", 0xFF, 0x06⟩, ⟨"CLEAR", 0xFF, 0x07⟩, ⟨"DISPNUM", 0xFF, 0x08⟩,
   ⟨"DISPTEXT", 0xFF, 0x09⟩]
  ++ [⟨"START", 0xFF, 0x10⟩, ⟨"STOP", 0xFF, 0x11⟩, ⟨"WRITEBYTE", 0xFF, 0x12⟩, ⟨"BITDELAY", 0xFF, 0x13⟩,
   ⟨"ENCODE", 0xFF, 0x14⟩]
  ++ [⟨"WIRE_DATA_AUTO", 0xFF, 0x40⟩, ⟨"WIRE_DATA_FIXED", 0xFF, 0x44⟩, ⟨"WIRE_ADDR", 0xFC, 0xC0⟩,
   ⟨"WIRE_DISPCTRL", 0xF8, 0x88⟩]

/-- The first byte of what an instruction presents: the opcode, or the command byte. -/
def Instr.firstByte (i : Instr) : Byte :=
  match Sys2Proof.encode i with
  | .op o => o.op
  | .frame bytes => bytes.headD 0

/-- The operands of an opcode at zero, in the shape R58 gives it: byte 0, absent, bit 0, the number 0, the
empty text, 0 ms. An opaque pin identifier has no bits to be zero: the two pins are `CLK_PIN` and `DIO_PIN` of
R8 (entry 19). -/
def zeroOperands (op : Byte) : List Operand :=
  if op = 0x01 then [.pin Config.clkPin, .pin Config.dioPin]
  else if op = 0x03 then [.byte 0, .byteOrAbsent none, .byteOrAbsent none]
  else if op = 0x04 then [.bit false]
  else if op = 0x05 then [.byte 0, .byte 0, .byte 0, .byte 0]
  else if op = 0x06 then [.byte 0, .byte 0]
  else if op = 0x08 then [.number (.finite 0), .byte 0, .bit false]
  else if op = 0x09 then [.text [], .natural 0]
  else if op = 0x12 ∨ op = 0x14 then [.byte 0]
  else []

/-- A word of the opcode table as it is presented: a host opcode on the host port with its operands at zero;
any other byte as the one-byte frame of a wire command (the table's WIRECMD rows). -/
def presentTableWord (w : Nat) : Presented :=
  let b : Byte := BitVec.ofNat 8 w
  if b < 0x15 then .op ⟨b, zeroOperands b⟩ else .frame [b]

/-- The instruction the decoder reads from a word of the opcode table, whose rows are 8 bits wide. -/
def decodeTableWord (nbits w : Nat) : Option Instr :=
  if nbits = 8 ∧ w < 256 then
    match decode (presentTableWord w) with
    | .ok i => some i
    | .error _ => none
  else none

end Sys2Proof
end

