-- ==== Sys2Proof/Machine/State.lean ====
section
/-!
DEFINITION. The state of the machine as plain data: the pads, the Bus Transport with its trace, the reference
receiver, the configuration registers, the sequencer and the host port; the reasons a step can stop; reset.
-/

namespace Sys2Proof.Machine

/-- The level a pad drives, or `UNDEF` before its first write: a third value, neither LOW nor HIGH (R38). -/
inductive PadLevel where
  | undef
  | driven (l : Level)
  deriving DecidableEq, Repr

/-- A pad event or a wait, as the trace lists it (R35). -/
inductive Event where
  /-- `COE(e)`: set-pin-mode of CLK -/
  | coe (e : Bool)
  /-- `CLK(l)`: digital-write of CLK -/
  | clk (l : Level)
  /-- `DOUT(l)`: digital-write of DIO -/
  | dout (l : Level)
  /-- `DOE(e)`: set-pin-mode of DIO -/
  | doe (e : Bool)
  /-- `SAMPLE -> v`: digital-read of DIO -/
  | sample (v : Level)
  /-- `WAIT_US(n)` -/
  | waitUs (n : Nat)
  /-- `WAIT_MS(n)` -/
  | waitMs (n : Nat)
  deriving DecidableEq, Repr

/-- The pads (R14, R15), and what the environment does to the DIO line (R16). -/
structure Pads where
  /-- `CLK_OE` -/
  clkOE : Bool
  /-- `CLK_O` -/
  clkO  : PadLevel
  /-- `DIO_OE` -/
  dioOE : Bool
  /-- `DIO_O` -/
  dioO  : PadLevel
  /-- the peripheral pulls the DIO line low (R16, R120) -/
  pull  : Bool
  deriving DecidableEq, Repr

/-- The reference receiver (R122), and what it has heard of the open frame (R121). -/
structure Receiver where
  /-- `MODE` -/
  mode       : RxMode
  /-- `RAM[0..3]` -/
  ram        : Vector Byte 4
  /-- `DISP_BRIGHT` -/
  dispBright : BitVec 3
  /-- `DISP_ON` -/
  dispOn     : Bool
  /-- a frame is open -/
  inFrame    : Bool
  /-- the levels taken of the current byte, bit 0 first; all eight while its acknowledge slot is awaited -/
  bits       : List Level
  /-- the complete bytes of the open frame, oldest first -/
  bytes      : List Byte
  /-- the level last seen on the CLK line -/
  seenClk    : Level
  /-- the level last seen on the DIO line -/
  seenDio    : Level
  /-- the model's own: how many free states the receiver has taken (entry 16) -/
  draws      : Nat
  deriving DecidableEq, Repr

/-- What the environment does about one byte: the level it answers, and whether a pull begins at the falling edge of
event A1 already, against the block's drive of bit 7, or at the release of event A2 (R36, R134). Entries 5 and 6. -/
structure Answer where
  level : Level
  early : Bool
  deriving DecidableEq, Repr

/-- The environment's answers to the SAMPLEs to come (R36): a list chosen by the environment, after whose end
each answer is free; or the reference receiver, which answers 0 to every byte (R120). Entry 5. -/
inductive Answers where
  | oracle (as : List Answer)
  | reference
  deriving DecidableEq, Repr

/-- The Bus Transport with its pads, its trace, and the far side of the bus. -/
structure Bus where
  /-- the pads -/
  pads        : Pads
  /-- `SHIFT` (R28) -/
  shift       : Byte
  /-- `BITCNT`, 0 to 8 (R29) -/
  bitcnt      : Fin 9
  /-- `ACK`: the sampled bit, LOW = 0 = acknowledged (R30) -/
  ack         : Level
  /-- every event so far, oldest first (R35) -/
  trace       : List Event
  /-- the sample oracle (R36) -/
  answers     : Answers
  /-- the model's own: how many answers were taken past the end of the oracle's list (entry 5) -/
  sampleDraws : Nat
  /-- the reference receiver -/
  rx          : Receiver
  deriving DecidableEq, Repr

/-- The sequencer (R33). -/
inductive Sequencer where
  | idle
  | busy (op : Instr)
  deriving DecidableEq, Repr

/-- What an operation returns (R18). -/
inductive Ret where
  /-- no value -/
  | none
  /-- the acknowledge bit, of WRITEBYTE -/
  | ack (v : Level)
  /-- the segment byte, of ENCODE -/
  | segment (s : Byte)
  deriving DecidableEq, Repr

/-- The reasons of a refusal (R109). -/
inductive Reason where
  | unknownOp
  | unconstructed
  | alreadyConstructed
  | samePin
  | brightnessRange
  | positionRange
  | decimalPlaces
  deriving DecidableEq, Repr

/-- A refusal mark: the reason and the operation as presented (R109). -/
structure Mark where
  reason : Reason
  op     : Presented
  deriving DecidableEq, Repr

/-- The whole machine. -/
structure State where
  /-- the parameters and the read-only tables (R8, R34) -/
  params      : Config.Params
  /-- what the host will present, in order (R18) -/
  host        : List Presented
  /-- the sequencer (R33) -/
  seq         : Sequencer
  /-- has a CONSTRUCT completed (R110) -/
  constructed : Bool
  /-- `PB_CLK` (R25) -/
  pbClk       : PinId
  /-- `PB_DIO` (R25) -/
  pbDio       : PinId
  /-- `DCTRL` (R20) -/
  dctrl       : Byte
  /-- `DCMD` (R21) -/
  dcmd        : Byte
  /-- `ACMD` (R22) -/
  acmd        : Byte
  /-- `POINT` (R23) -/
  point       : Bool
  /-- `SEGBUF[0..3]` (R31) -/
  segbuf      : Vector Byte 4
  /-- the Bus Transport (R2) -/
  bus         : Bus
  /-- the value returned by the last completed operation (R18; entry 21) -/
  ret         : Ret
  /-- the refusal marks, oldest first (R109) -/
  marks       : List Mark
  /-- the model's own: how many `draw_8()` were taken (R99; entry 11) -/
  byteDraws   : Nat
  deriving DecidableEq, Repr

/-- Why the machine stops with a fault. -/
inductive Fault where
  /-- Raised by every host operation when the sequencer is BUSY: the model has no step for a second operation
  during a first (R136, U18). Safe: the machine stops where the spec says to assume nothing. Entry 9. -/
  | overlap
  deriving DecidableEq, Repr

/-- Why something presented has no meaning. -/
inductive Refusal where
  /-- Raised by `exec` for an instruction without a meaning yet; no arm raises it now. Safe: the machine
  stops. -/
  | notModelled (mnemonic : String)
  /-- Raised by `step` for an operand list whose shape is not the one its opcode fixes (R57): it is no
  operation of the host port. Safe: the machine stops. Entry 10. -/
  | operandShape
  deriving DecidableEq, Repr

/-- The receiver at power-on: unspecified, so free values; it hears no frame, and it has seen the
unwritten lines (R122, R129; entries 4 and 16). -/
def Receiver.powerOn : Receiver where
  mode := Config.freeMode 0
  ram := Config.freeRam 0
  dispBright := Config.freeBright 0
  dispOn := Config.freeOn 0
  inFrame := false
  bits := []
  bytes := []
  seenClk := Config.openClk
  seenDio := Config.openDio
  draws := 1

/-- The bus before anything has run: R38's pads, nothing traced, no answer listed. -/
def Bus.reset : Bus where
  pads := { clkOE := true, clkO := .undef, dioOE := true, dioO := .undef, pull := false }
  shift := 0
  bitcnt := 0
  ack := .low
  trace := []
  answers := .oracle []
  sampleDraws := 0
  rx := .powerOn

/-- The machine before CONSTRUCT (R110, R128), every register at its value of R38. CONSTRUCT is the operation
that establishes those values; before it no operation reads them. Entries 2 and 3. -/
def State.reset : State where
  params := Config.params
  host := []
  seq := .idle
  constructed := false
  pbClk := Config.clkPin
  pbDio := Config.dioPin
  dctrl := 0x8A
  dcmd := 0x40
  acmd := 0xC0
  point := false
  segbuf := #v[0, 0, 0, 0]
  bus := .reset
  ret := .none
  marks := []
  byteDraws := 0

end Sys2Proof.Machine
end

