-- ==== Sys2Proof/Machine/Operands.lean ====
section
/-!
DEFINITION. The operand forms and the arithmetic of operands: input codes, table reads, command bytes, the
scaled magnitude and digits of DISPNUM, the window slots of DISPTEXT, the fields of a segment byte.
-/

namespace Sys2Proof.Machine

/-- The input code of a host value that is an 8-bit integer: a negative one is its two's complement (R63). -/
def codeOfInt (z : Int) : Byte := BitVec.ofInt 8 z

/-- The number a host passes as a binary floating-point value `±mant · 2^exp`: its exact value, so that minus
zero is the rational 0 (R97). -/
def numberOfBinary (negative : Bool) (mant : Nat) (exp : Int) : Number :=
  .finite ((bif negative then -(mant : Rat) else (mant : Rat)) * (2 : Rat) ^ exp)

/-! ### Table reads -/

/-- `NUMERAL_TABLE[i]` (R83); read for `i ≤ 15` only (R80). -/
def numeral (p : Config.Params) (i : Byte) : Byte :=
  (p.numeralTable.toList.getD i.toNat 0).setWidth 8

/-- Does a code name a printable character, 0x20 to 0x7E? (R84 (c)) -/
def printable (c : Byte) : Bool := 0x20 ≤ c && c ≤ 0x7E

/-- The code a glyph is listed under: 'b' renders as 'B' (R84 (b)). -/
def glyphKey (c : Byte) : Byte := if c = 0x62 then 0x42 else c

/-- `CHAR_TABLE(c)` (R84): bit 7 clear (a), 'B' and 'b' alike (b), blank for a code that is not printable or
not recognized (c). -/
def charTable (p : Config.Params) (c : Byte) : Byte :=
  if printable c then ((p.charGlyphs.lookup (glyphKey c)).getD 0).setWidth 8 else 0

/-! ### Command bytes -/

/-- The display-control command of brightness `b`, `0x88 + b` (R20, R66). -/
def displayControl (b : Byte) : Byte := 0x88 + b

/-- The address command of a digit position, `0xC0 | pos`: the digit multiplexer (R65, R89). -/
def addressCommand (pos : Byte) : Byte := 0xC0 ||| pos

/-- `DCTRL.BRIGHT`, the field `DCTRL[2:0]` (R20). -/
def brightField (dctrl : Byte) : BitVec 3 := dctrl.extractLsb' 0 3

/-! ### The fields of a segment byte (R67, R68) -/

/-- Is segment `i` (0 to 6) of a segment byte lit? -/
def lit (s : Byte) (i : Fin 7) : Bool := s.getLsbD i

/-- The colon/point indicator of a segment byte. -/
def pointBit (s : Byte) : Bool := s.getLsbD 7

/-! ### The arithmetic of DISPNUM (R98, R99, R100, R101) -/

/-- Is the value below zero? Minus infinity is; zero and not-a-number are not. -/
def isNegative : Number → Bool
  | .finite q => q.num < 0
  | .negInf => true
  | .posInf => false
  | .nan => false

/-- `m = floor(|q| · 10^dp + 1/2)`: the nearest natural number, a tie rounding up (R98), over the numerator
and denominator of `q`. -/
def scaledMagnitude (q : Rat) (dp : Byte) : Nat :=
  (2 * q.num.natAbs * 10 ^ dp.toNat + q.den) / (2 * q.den)

/-- Does `m` fit the signed working integer of `w` bits? (R99) -/
def fitsWorkingInt (w m : Nat) : Bool := m ≤ 2 ^ (w - 1) - 1

/-- The magnitude DISPNUM renders: `m` where the value is finite and in range, nothing otherwise (R99). -/
def magnitude (w : Nat) (dp : Byte) : Number → Option Nat
  | .finite q => if fitsWorkingInt w (scaledMagnitude q dp) then some (scaledMagnitude q dp) else none
  | .posInf => none
  | .negInf => none
  | .nan => none

/-- The input code DISPNUM writes for the remaining magnitude `m`: its last digit, or the blank once nothing
remains (R101). -/
def digitCode (m : Nat) : Byte := if m ≠ 0 then BitVec.ofNat 8 (m % 10) else Config.blankCode

/-- The numeral positions, rightmost first: four, or three where position 0 is kept for the minus glyph
(R101, R103). -/
def numeralPositions (neg : Bool) : List Byte := bif neg then [3, 2, 1] else [3, 2, 1, 0]

/-! ### The window of DISPTEXT (R104, R106) -/

/-- `slot(k, j)`: the code at source index `k + j`, or the blank outside the text. -/
def slot (text : List Byte) (k : Int) (j : Nat) : Byte :=
  if 0 ≤ k + j ∧ k + j < text.length then text.getD (k + j).toNat Config.blankCode else Config.blankCode

/-- The window start indices of a scroll over `len` codes: -4 to `len`, inclusive. -/
def windowStarts (len : Nat) : List Int := (List.range (len + 5)).map fun n : Nat => (n : Int) - 4

end Sys2Proof.Machine
end

