-- ==== Sys2Proof/Machine/Flags.lean ====
section
/-!
DEFINITION. The two flags: POINT, which ENCODE ORs into every segment byte and DISPNUM writes; and ACK, the
sampled acknowledge bit.
-/

namespace Sys2Proof.Machine

/-- The point bit ORed into a resolved segment byte: bit 7 and only bit 7 (R82). -/
def withPoint (point : Bool) (s : Byte) : Byte := if point then s ||| 0x80 else s

/-- `ENCODE₀(c)`: the segment byte by the resolution order (R80, R81), before the point bit. -/
def resolve (p : Config.Params) (c : Byte) : Byte :=
  if c = Config.blankCode then 0
  else if c ≤ 15 then numeral p c
  else if 0x30 ≤ c ∧ c ≤ 0x39 then numeral p (c - 0x30)
  else charTable p c

/-- `ENCODE(c)` under the tables and a point flag (R80, R82). -/
def encodeCode (p : Config.Params) (point : Bool) (c : Byte) : Byte := withPoint point (resolve p c)

/-- The value DISPNUM gives `POINT` (R102). -/
def pointOfPlaces (dp : Byte) : Bool := dp = 2

/-- The acknowledge bit that a level on the DIO line carries: LOW = 0 = acknowledged (R30). -/
def acknowledged (ack : Level) : Bool := ack = .low

end Sys2Proof.Machine
end

