-- ==== Sys2Proof/Machine/Ops.lean ====
section
/-!
DEFINITION. The shared operations: the lines, the reference receiver, the pad events and the transport
sequences over the bus, the refusal, the admission of a host operation, and the three-frame writes.
-/

namespace Sys2Proof.Machine

/-! ### The two lines (R14, R16) -/

/-- The level on the CLK line: `CLK_O` while `CLK_OE` = 1 (R14). -/
def Pads.clkLine (p : Pads) : PadLevel := if p.clkOE then p.clkO else .undef

/-- The level the environment gives a released DIO line: LOW when the peripheral pulls it, else HIGH (R16). -/
def Pads.released (p : Pads) : Level := if p.pull then .low else .high

/-- The block drives DIO HIGH while the peripheral pulls it low: contention (R16). -/
def Pads.contends (p : Pads) : Bool := p.dioOE && p.pull && p.dioO == .driven .high

/-- The level on the DIO line, which is `DIO_I` (R15, R16); unspecified under contention. -/
def Pads.dioLine (p : Pads) : PadLevel :=
  if p.contends then .undef
  else if p.dioOE then p.dioO
  else .driven p.released

/-- The level a listener takes for a line, when `l₀` is the level of an unwritten one. -/
def PadLevel.taken (l₀ : Level) : PadLevel → Level
  | .undef => l₀
  | .driven l => l

/-- The level a listener takes on the CLK line: a free value before its first write (R38; entry 4). -/
def Pads.clkHeard (p : Pads) : Level := p.clkLine.taken Config.openClk

/-- The level a listener takes on the DIO line, if it is not contended: a free value before its first write (R38;
entry 4). -/
def Pads.dioHeard (p : Pads) : Level := p.dioLine.taken Config.openDio

/-! ### The reference receiver (R120 to R126) -/

/-- Havoc: the receiver's whole state becomes unspecified (R124, R126). -/
def Receiver.havoc (rx : Receiver) : Receiver :=
  { rx with
    mode := Config.freeMode rx.draws
    ram := Config.freeRam rx.draws
    dispBright := Config.freeBright rx.draws
    dispOn := Config.freeOn rx.draws
    draws := rx.draws + 1 }

/-- A data-write command frame: `MODE <- m` (R123). -/
def Receiver.setMode (m : RxMode) (rx : Receiver) : Receiver := { rx with mode := m }

/-- The payload of an address frame, from position `addr` on (R124). -/
def Receiver.store : Nat → List Byte → Receiver → Receiver
  | _, [], rx => rx
  | addr, s :: ss, rx =>
    if addr > 3 then rx.havoc
    else
      Receiver.store (if rx.mode = .auto then addr + 1 else addr) ss
        { rx with ram := rx.ram.setIfInBounds addr s }

/-- A display-control frame: `DISP_ON <- 1`, `DISP_BRIGHT <- b` (R125). -/
def Receiver.setBright (b : BitVec 3) (rx : Receiver) : Receiver :=
  { rx with dispOn := true, dispBright := b }

/-- A frame's complete bytes, processed at its stop condition (R121, R123 to R126). -/
def Receiver.process (bytes : List Byte) (rx : Receiver) : Receiver :=
  match decodeFrame bytes with
  | .ok .wireDataAuto => rx.setMode .auto
  | .ok .wireDataFixed => rx.setMode .fixed
  | .ok (.wireAddr p payload) => rx.store p.toNat payload
  | .ok (.wireDispctrl b) => rx.setBright b
  | .error .emptyFrame => rx
  | _ => rx.havoc

/-- The byte whose bits were taken in this order, bit 0 first (R43, R121). -/
def byteOfLevels (ls : List Level) : Byte :=
  ls.foldr (fun l acc => (acc <<< 1) ||| (if l = .high then 1 else 0)) 0

/-- A start condition: byte collection begins anew (R121). -/
def Receiver.startCondition (rx : Receiver) : Receiver := { rx with inFrame := true, bits := [], bytes := [] }

/-- A stop condition: the open frame's complete bytes are processed, an incomplete byte is discarded (R121).
Without an open frame it is an empty frame (R135). -/
def Receiver.stopCondition (rx : Receiver) : Receiver :=
  let rx' := if rx.inFrame then rx.process rx.bytes else rx
  { rx' with inFrame := false, bits := [], bytes := [] }

/-- A rising CLK edge: inside a frame, edges 1 to 8 of a byte take a data bit and edge 9 is its acknowledge
slot (R70, R121). Entry 17. -/
def Receiver.risingEdge (dio : Level) (rx : Receiver) : Receiver :=
  if rx.inFrame then
    if rx.bits.length < 7 then { rx with bits := rx.bits ++ [dio] }
    else if rx.bits.length = 7 then
      { rx with bits := rx.bits ++ [dio], bytes := rx.bytes ++ [byteOfLevels (rx.bits ++ [dio])] }
    else { rx with bits := [] }
  else rx

/-- What the receiver makes of the two lines' new levels (R73, R75, R121). -/
def Receiver.hear (clk dio : Level) (rx : Receiver) : Receiver :=
  let rx' :=
    match rx.seenClk, clk with
    | .low, .high => rx.risingEdge dio
    | .high, .high =>
      match rx.seenDio, dio with
      | .high, .low => rx.startCondition
      | .low, .high => rx.stopCondition
      | _, _ => rx
    | _, _ => rx
  { rx' with seenClk := clk, seenDio := dio }

/-- The receiver listens to the lines of the pads at event number `n`; a contended level is a free value (entry 7). -/
def Receiver.listen (n : Nat) (p : Pads) (rx : Receiver) : Receiver :=
  rx.hear p.clkHeard (if p.contends then Config.contentionLevel n else p.dioHeard)

/-- What the display shows at a position: its segment byte while the display is on (R127). -/
def Receiver.shows (rx : Receiver) (pos : Fin 4) : Option Byte := if rx.dispOn then some rx.ram[pos] else none

/-! ### Pad events (R17, R35) -/

/-- The signals an event writes (R35). A falling CLK edge ends the peripheral's pull (R120; entry 6). -/
def Pads.apply (e : Event) (p : Pads) : Pads :=
  match e with
  | .coe e => { p with clkOE := e }
  | .clk l => { p with clkO := .driven l, pull := p.pull && !(p.clkO == .driven .high && l == .low) }
  | .dout l => { p with dioO := .driven l }
  | .doe e => { p with dioOE := e }
  | .sample _ => p
  | .waitUs _ => p
  | .waitMs _ => p

/-- An event is traced, the pads take their new signals, and the receiver hears the lines. -/
def Bus.drive (e : Event) (p : Pads) (b : Bus) : Bus :=
  { b with trace := b.trace ++ [e], pads := p, rx := b.rx.listen b.trace.length p }

/-- Perform one event (R10, R35): it is recorded even when it changes no signal. -/
def Bus.emit (e : Event) (b : Bus) : Bus := b.drive e (b.pads.apply e)

/-! ### The sample oracle (R36; entry 5) -/

/-- The environment's next answer. -/
def Bus.nextAnswer (b : Bus) : Level :=
  match b.answers with
  | .reference => .low
  | .oracle (a :: _) => a.level
  | .oracle [] => Config.freeAnswer b.sampleDraws

/-- Does the environment pull for the next byte from event A1 on? The reference receiver does not (R120, R134). -/
def Bus.pullsEarly (b : Bus) : Bool :=
  b.nextAnswer == .low &&
    match b.answers with
    | .reference => false
    | .oracle (a :: _) => a.early
    | .oracle [] => Config.freeEarly b.sampleDraws

/-- The answer is used up. -/
def Bus.takeAnswer (b : Bus) : Bus :=
  match b.answers with
  | .reference => b
  | .oracle (_ :: as) => { b with answers := .oracle as }
  | .oracle [] => { b with sampleDraws := b.sampleDraws + 1 }

/-- The falling edge after bit 7, event A1 of R76: the block still drives DIO, and a peripheral may begin its pull
(R134; entry 6). -/
def Bus.ackFall (b : Bus) : Bus :=
  b.drive (.clk .low) { b.pads.apply (.clk .low) with pull := b.pullsEarly }

/-- Release DIO, event A2 of R76: from here on the environment holds the line at its answer (R120; entries 5
and 6). -/
def Bus.release (b : Bus) : Bus :=
  (b.drive (.doe false) { b.pads.apply (.doe false) with pull := b.nextAnswer = .low }).takeAnswer

/-- `ACK <- SAMPLE`, event A5 of R76: the level on the released line. -/
def Bus.sample (b : Bus) : Bus := { b.emit (.sample b.pads.released) with ack := b.pads.released }

/-! ### The Bus Transport (R72 to R79) -/

/-- START (R72). -/
def Bus.start (b : Bus) : Bus :=
  b |>.emit (.clk .high) |>.emit (.dout .high) |>.emit (.dout .low) |>.emit (.clk .low)

/-- STOP (R74). -/
def Bus.stop (b : Bus) : Bus :=
  b |>.emit (.clk .low) |>.emit (.dout .low) |>.emit (.clk .high) |>.emit (.dout .high)

/-- `SHIFT <- v`, with no bit sent yet (R28, R29). -/
def Bus.loadShift (v : Byte) (b : Bus) : Bus := { b with shift := v, bitcnt := 0 }

/-- `SHIFT <- SHIFT >> 1` after a bit, one more bit being sent (R28, R29). -/
def Bus.shiftOut (b : Bus) : Bus := { b with shift := b.shift >>> 1, bitcnt := b.bitcnt + 1 }

/-- One data bit of WRITEBYTE (R76). -/
def Bus.sendBit (b : Bus) : Bus :=
  b |>.emit (.clk .low) |>.emit (.dout (.ofBit (b.shift.getLsbD 0))) |>.emit (.clk .high) |>.shiftOut

/-- `n` data bits of WRITEBYTE (R76). -/
def Bus.sendBits : Nat → Bus → Bus
  | 0, b => b
  | n + 1, b => Bus.sendBits n b.sendBit

/-- Reassert the drive when acknowledged, events A6a and A6b (R76, R78). -/
def Bus.reassert (b : Bus) : Bus :=
  if acknowledged b.ack then b |>.emit (.dout .low) |>.emit (.doe true) else b

/-- The acknowledge phase of WRITEBYTE, events A1 to A10 (R76). -/
def Bus.ackPhase (us : Nat) (b : Bus) : Bus :=
  b |>.ackFall |>.release |>.emit (.clk .high) |>.emit (.waitUs us) |>.sample |>.reassert
    |>.emit (.waitUs us) |>.emit (.dout .low) |>.emit (.doe true) |>.emit (.waitUs us)

/-- WRITEBYTE (R76), with waits of `us` microseconds. -/
def Bus.writeByte (us : Nat) (v : Byte) (b : Bus) : Bus := (b.loadShift v |>.sendBits 8).ackPhase us

/-- The bytes of a frame, in order (R44). -/
def Bus.writeBytes (us : Nat) : List Byte → Bus → Bus
  | [], b => b
  | v :: vs, b => Bus.writeBytes us vs (b.writeByte us v)

/-- One frame: START, its bytes, STOP (R48, R69). -/
def Bus.sendFrame (us : Nat) (bytes : List Byte) (b : Bus) : Bus := (b.start.writeBytes us bytes).stop

/-- Frames in order, each in its own start and stop (R88). -/
def Bus.sendFrames (us : Nat) : List (List Byte) → Bus → Bus
  | [], b => b
  | f :: fs, b => Bus.sendFrames us fs (b.sendFrame us f)

/-! ### Refusal and admission of a host operation (R18, R33, R109, R112) -/

/-- The code of a reason (R109). -/
def Reason.code : Reason → Nat
  | .unknownOp => 1
  | .unconstructed => 2
  | .alreadyConstructed => 3
  | .samePin => 4
  | .brightnessRange => 5
  | .positionRange => 6
  | .decimalPlaces => 7

/-- The value recorded with a refusal: the reason code and the operation as presented (R109). -/
def Mark.value (m : Mark) : Nat × Presented := (m.reason.code, m.op)

/-- A refusal: no event, no register written, no value returned; only the mark is recorded (R109, R113).
Entry 8. -/
def State.refuse (r : Reason) (op : Presented) (s : State) : State := { s with marks := s.marks ++ [⟨r, op⟩] }

/-- The sequencer begins an operation (R33). -/
def State.begin (i : Instr) (s : State) : State := { s with seq := .busy i }

/-- The operation returns: the sequencer is IDLE again and the host has its value (R18, R33). -/
def State.finish (r : Ret) (s : State) : State := { s with seq := .idle, ret := r }

/-- The host port takes an operation only when none is in progress (R18, R136). -/
def State.ifIdle (s : State) (k : Host.Outcome State Fault Refusal) : Host.Outcome State Fault Refusal :=
  match s.seq with
  | .idle => k
  | .busy _ => .fault .overlap

/-- A host operation other than CONSTRUCT: refused before construction, then by its operand check, else run to
completion (R110, R112). -/
def State.accept (i : Instr) (check : Option Reason) (body : State → State) (result : State → Ret) (s : State) :
    Host.Outcome State Fault Refusal :=
  s.ifIdle <|
    if s.constructed then
      match check with
      | some r => .next (s.refuse r (encode i))
      | none => .next ((body (s.begin i)).finish (result (body (s.begin i))))
    else .next (s.refuse .unconstructed (encode i))

/-- The result of an operation that returns no value. -/
def noResult (_ : State) : Ret := .none

/-! ### Operations the display operations share -/

/-- Run part of the Bus Transport, which touches nothing else in the system (R2). -/
def State.onBus (f : Bus → Bus) (s : State) : State := { s with bus := f s.bus }

/-- What CONSTRUCT writes (R38, R90): pins, defaults, and the two pad events. Entry 2. -/
def State.bindPins (clk dio : PinId) (s : State) : State :=
  { s with
    pbClk := clk
    pbDio := dio
    dctrl := displayControl (s.params.defaultBrightness.setWidth 8)
    dcmd := wireDataAutoByte
    acmd := addressCommand 0
    point := false
    constructed := true
    bus := { s.bus with pads := { s.bus.pads with clkO := .undef, dioO := .undef } }
      |>.emit (.coe true) |>.emit (.doe true) }

/-- ENCODE under the registers of the state (R80). -/
def State.encodeCode (s : State) (c : Byte) : Byte := Machine.encodeCode s.params s.point c

/-- Frames on the bus, with the block's bit delay (R79, R88). -/
def State.sendFrames (frames : List (List Byte)) (s : State) : State :=
  s.onBus (Bus.sendFrames s.params.bitDelayUs frames)

/-- The three frames that write one segment byte at one position (R88, R95). -/
def State.writeSegment (pos seg : Byte) (s : State) : State :=
  s.sendFrames [[wireDataFixedByte], [addressCommand pos, seg], [s.dctrl]]

/-- `call WRITEONE(pos, d)` (R95). -/
def State.writeOne (pos d : Byte) (s : State) : State := s.writeSegment pos (s.encodeCode d)

/-- Encode the four inputs of a WRITEALL, before any pad event (R31, R94). -/
def State.loadSegbuf (d0 d1 d2 d3 : Byte) (s : State) : State :=
  { s with segbuf := #v[s.encodeCode d0, s.encodeCode d1, s.encodeCode d2, s.encodeCode d3] }

/-- The three frames of a WRITEALL (R88, R94). -/
def State.sendSegbuf (s : State) : State :=
  s.sendFrames [[wireDataAutoByte], s.acmd :: s.segbuf.toList, [s.dctrl]]

/-- `call WRITEALL(d0, d1, d2, d3)` (R94). -/
def State.writeAll (d0 d1 d2 d3 : Byte) (s : State) : State := (s.loadSegbuf d0 d1 d2 d3).sendSegbuf

/-- `call CLEAR`: the blank at positions 0 to 3, in that order (R96). -/
def State.clearAll (s : State) : State :=
  s |>.writeOne 0 Config.blankCode |>.writeOne 1 Config.blankCode |>.writeOne 2 Config.blankCode
    |>.writeOne 3 Config.blankCode

/-- The registers CONFIGURE writes; an absent operand keeps its register (R92). -/
def State.setConfig (b : Byte) (dcmd acmd : Option Byte) (s : State) : State :=
  { s with dctrl := displayControl b, dcmd := dcmd.getD s.dcmd, acmd := acmd.getD s.acmd }

/-- `POINT <- on` (R93). -/
def State.setPoint (on : Bool) (s : State) : State := { s with point := on }

/-! ### Number and text rendering (R101, R104) -/

/-- The digits of `m` at the given positions, one WRITEONE each (R101, R103). -/
def State.renderDigits : List Byte → Nat → State → State
  | [], _, s => s
  | pos :: ps, m, s => State.renderDigits ps (m / 10) (s.writeOne pos (digitCode m))

/-- One write of a drawn payload byte, `draw_8()` (R99, R101). -/
def State.writeDraw (pos : Byte) (s : State) : State :=
  { s.writeSegment pos (Config.freeByte s.byteDraws) with byteDraws := s.byteDraws + 1 }

/-- Drawn payload bytes at the given positions (R101). -/
def State.renderDraws : List Byte → State → State
  | [], s => s
  | pos :: ps, s => State.renderDraws ps (s.writeDraw pos)

/-- The numeral positions of DISPNUM: digits where `m` is in range, drawn bytes otherwise (R101). -/
def State.renderNumber (positions : List Byte) (m : Option Nat) (s : State) : State :=
  match m with
  | some m => s.renderDigits positions m
  | none => s.renderDraws positions

/-- The minus glyph at the leftmost position, written last (R101, R103). -/
def State.renderMinus (neg : Bool) (s : State) : State := if neg then s.writeOne 0 Config.minusCode else s

/-- DISPNUM within its contract (R101, R102): POINT first, then the numerals, then the minus glyph. -/
def State.renderValue (value : Number) (dp : Byte) (minus : Bool) (s : State) : State :=
  s |>.setPoint (pointOfPlaces dp)
    |>.renderNumber (numeralPositions (minus && isNegative value)) (magnitude s.params.hostIntBits dp value)
    |>.renderMinus (minus && isNegative value)

/-- One window of DISPTEXT: a WRITEALL of its four slots (R104). -/
def State.showWindow (text : List Byte) (k : Int) (s : State) : State :=
  s.writeAll (slot text k 0) (slot text k 1) (slot text k 2) (slot text k 3)

/-- A window of a scroll: `WAIT_MS(ms)` before every window but the first (R104, R106). -/
def State.scrollWindow (text : List Byte) (ms : Nat) (s : State) (k : Int) : State :=
  (if k > -4 then s.onBus (Bus.emit (.waitMs ms)) else s).showWindow text k

/-- DISPTEXT (R104, R105, R106): one write where the text fits, else the scroll. -/
def State.renderText (text : List Byte) (ms : Nat) (s : State) : State :=
  if text.length ≤ 4 then s.showWindow text 0
  else (windowStarts text.length).foldl (State.scrollWindow text ms) s

/-! ### The wire port and the table's words -/

/-- A frame reaches the receiver (R121); the block is not concerned. -/
def State.onReceiver (f : Receiver → Receiver) (s : State) : State :=
  s.onBus fun b => { b with rx := f b.rx }

/-- The block as CONSTRUCT leaves it, if it is not constructed and the instruction needs it to be: the host
must present CONSTRUCT first (R110, R130). Entry 1. -/
def State.bootedFor (i : Instr) (s : State) : State :=
  match i with
  | .construct _ _ | .wireDataAuto | .wireDataFixed | .wireAddr _ _ | .wireDispctrl _ => s
  | _ => if s.constructed then s else s.bindPins Config.clkPin Config.dioPin

/-- A word of the opcode table stands next at the port it is for, and what its instruction needs to run has
happened (entries 1 and 19). -/
def State.presentWord (nbits w : Nat) (s : State) : State :=
  let s' :=
    match decodeTableWord nbits w with
    | some i => s.bootedFor i
    | none => s
  { s' with host := presentTableWord w :: s'.host }

end Sys2Proof.Machine
end

