-- ==== Sys2Proof/Machine/Display.lean ====
section
/-!
DEFINITION. The Display Controller operations: CONSTRUCT, INIT, CONFIGURE, SETPOINT, WRITEALL, WRITEONE, CLEAR
(42_display_controller.md).
-/

namespace Sys2Proof.Machine

/-- CONSTRUCT(clk, dio) (R90): refused once constructed, and on equal pins (R112); else it binds the pins and
sets the defaults. -/
def execConstruct (clk dio : PinId) (s : State) : Host.Outcome State Fault Refusal :=
  s.ifIdle <|
    if s.constructed then .next (s.refuse .alreadyConstructed (encode (.construct clk dio)))
    else if clk = dio then .next (s.refuse .samePin (encode (.construct clk dio)))
    else .next (((s.begin (.construct clk dio)).bindPins clk dio).finish .none)

/-- INIT (R91): exactly CLEAR. -/
def execInit (s : State) : Host.Outcome State Fault Refusal :=
  s.accept .init none State.clearAll noResult

/-- CONFIGURE(b, dcmd, acmd) (R92): refuses a brightness above 7, else stores the configuration. -/
def execConfigure (b : Byte) (dcmd acmd : Option Byte) (s : State) : Host.Outcome State Fault Refusal :=
  s.accept (.configure b dcmd acmd) (if b > 7 then some .brightnessRange else none) (State.setConfig b dcmd acmd)
    noResult

/-- SETPOINT(on) (R93): stores the point flag. -/
def execSetpoint (on : Bool) (s : State) : Host.Outcome State Fault Refusal :=
  s.accept (.setpoint on) none (State.setPoint on) noResult

/-- WRITEALL(d0, d1, d2, d3) (R94). -/
def execWriteall (d0 d1 d2 d3 : Byte) (s : State) : Host.Outcome State Fault Refusal :=
  s.accept (.writeall d0 d1 d2 d3) none (State.writeAll d0 d1 d2 d3) noResult

/-- WRITEONE(pos, d) (R95): refuses a position above 3. -/
def execWriteone (pos d : Byte) (s : State) : Host.Outcome State Fault Refusal :=
  s.accept (.writeone pos d) (if pos > 3 then some .positionRange else none) (State.writeOne pos d) noResult

/-- CLEAR (R96). -/
def execClear (s : State) : Host.Outcome State Fault Refusal :=
  s.accept .clear none State.clearAll noResult

end Sys2Proof.Machine
end

