-- ==== Sys2Proof/Machine/Encoder.lean ====
section
/-!
DEFINITION. The segment encoder on the host port: ENCODE (41_segment_encoder.md).
-/

namespace Sys2Proof.Machine

/-- ENCODE(c) (R80): writes nothing and returns the segment byte. -/
def execEncode (c : Byte) (s : State) : Host.Outcome State Fault Refusal :=
  s.accept (.encode c) none id fun t => .segment (t.encodeCode c)

end Sys2Proof.Machine
end

