-- ==== Sys2Proof/Machine/Rendering.lean ====
section
/-!
DEFINITION. Number and text rendering: DISPNUM, DISPTEXT (43_rendering.md).
-/

namespace Sys2Proof.Machine

/-- DISPNUM(value, dp, minus) (R101): refuses decimal places other than 0 and 2. -/
def execDispnum (value : Number) (dp : Byte) (minus : Bool) (s : State) : Host.Outcome State Fault Refusal :=
  s.accept (.dispnum value dp minus) (if dp ≠ 0 ∧ dp ≠ 2 then some .decimalPlaces else none)
    (State.renderValue value dp minus) noResult

/-- DISPTEXT(text, ms) (R104). -/
def execDisptext (text : List Byte) (ms : Nat) (s : State) : Host.Outcome State Fault Refusal :=
  s.accept (.disptext text ms) none (State.renderText text ms) noResult

end Sys2Proof.Machine
end

