-- ==== Sys2Proof/Machine/Transport.lean ====
section
/-!
DEFINITION. The Bus Transport operations on the host port: START, STOP, WRITEBYTE, BITDELAY (40_bus_transport.md).
-/

namespace Sys2Proof.Machine

/-- START (R72): opens a frame; no value is returned. -/
def execStart (s : State) : Host.Outcome State Fault Refusal :=
  s.accept .start none (State.onBus Bus.start) noResult

/-- STOP (R74): closes a frame; no value is returned. -/
def execStop (s : State) : Host.Outcome State Fault Refusal :=
  s.accept .stop none (State.onBus Bus.stop) noResult

/-- WRITEBYTE(v) (R76): sends a byte and returns `ACK`. -/
def execWritebyte (v : Byte) (s : State) : Host.Outcome State Fault Refusal :=
  s.accept (.writebyte v) none (State.onBus (Bus.writeByte s.params.bitDelayUs v)) fun t => .ack t.bus.ack

/-- BITDELAY (R79): one wait. -/
def execBitdelay (s : State) : Host.Outcome State Fault Refusal :=
  s.accept .bitdelay none (State.onBus (Bus.emit (.waitUs s.params.bitDelayUs))) noResult

end Sys2Proof.Machine
end

