-- ==== Sys2Proof/Machine/Wire.lean ====
section
/-!
DEFINITION. The wire commands (R64, R65, R66): what the reference receiver does with a frame that begins with
each of them (R123, R124, R125). They act on the receiver alone (entry 18).
-/

namespace Sys2Proof.Machine

/-- The frame `[0x40]`: `MODE <- AUTO` (R123). -/
def execWireDataAuto (s : State) : Host.Outcome State Fault Refusal :=
  .next (s.onReceiver (Receiver.setMode .auto))

/-- The frame `[0x44]`: `MODE <- FIXED` (R123). -/
def execWireDataFixed (s : State) : Host.Outcome State Fault Refusal :=
  .next (s.onReceiver (Receiver.setMode .fixed))

/-- The frame `[0xC0 | p, payload…]`: the payload goes to `RAM` from position `p` (R124). -/
def execWireAddr (p : BitVec 2) (payload : List Byte) (s : State) : Host.Outcome State Fault Refusal :=
  .next (s.onReceiver (Receiver.store p.toNat payload))

/-- The frame `[0x88 + b]`: `DISP_ON <- 1`, `DISP_BRIGHT <- b` (R125). -/
def execWireDispctrl (b : BitVec 3) (s : State) : Host.Outcome State Fault Refusal :=
  .next (s.onReceiver (Receiver.setBright b))

end Sys2Proof.Machine
end

