-- ==== Sys2Proof/Machine/Dispatch.lean ====
section
/-!
DEFINITION. The meaning of each instruction: one arm for each constructor.
-/

namespace Sys2Proof.Machine

/-- The meaning of an instruction. -/
def exec (i : Instr) (s : State) : Host.Outcome State Fault Refusal :=
  match i with
  | .construct clk dio => Sys2Proof.Machine.execConstruct clk dio s
  | .init => Sys2Proof.Machine.execInit s
  | .configure b dcmd acmd => Sys2Proof.Machine.execConfigure b dcmd acmd s
  | .setpoint on => Sys2Proof.Machine.execSetpoint on s
  | .writeall d0 d1 d2 d3 => Sys2Proof.Machine.execWriteall d0 d1 d2 d3 s
  | .writeone pos d => Sys2Proof.Machine.execWriteone pos d s
  | .clear => Sys2Proof.Machine.execClear s
  | .dispnum value dp minus => Sys2Proof.Machine.execDispnum value dp minus s
  | .disptext text ms => Sys2Proof.Machine.execDisptext text ms s
  | .start => Sys2Proof.Machine.execStart s
  | .stop => Sys2Proof.Machine.execStop s
  | .writebyte v => Sys2Proof.Machine.execWritebyte v s
  | .bitdelay => Sys2Proof.Machine.execBitdelay s
  | .encode c => Sys2Proof.Machine.execEncode c s
  | .wireDataAuto => Sys2Proof.Machine.execWireDataAuto s
  | .wireDataFixed => Sys2Proof.Machine.execWireDataFixed s
  | .wireAddr p payload => Sys2Proof.Machine.execWireAddr p payload s
  | .wireDispctrl b => Sys2Proof.Machine.execWireDispctrl b s

end Sys2Proof.Machine
end

