-- ==== Sys2Proof/Machine/Port.lean ====
section
/-!
DEFINITION. The host port: what is presented is taken in order, decoded and run.
-/

namespace Sys2Proof.Machine

/-- The host presents its next operation (R18): what stands first in `host` is taken. -/
def State.fetch (s : State) : Option (Presented × State) :=
  match s.host with
  | [] => none
  | p :: rest => some (p, { s with host := rest })

/-- Something presented is run, or it is no instruction: an unknown opcode is refused with a mark (R59, R109),
an empty frame does nothing, a foreign frame havocs the receiver (R126), and an operand list of another shape
has no meaning (R57; entry 10). -/
def runPresented (p : Presented) (s : State) : Host.Outcome State Fault Refusal :=
  match decode p with
  | .ok i => exec i s
  | .error .unknownOp => s.ifIdle (.next (s.refuse .unknownOp p))
  | .error .operandShape => .refused .operandShape
  | .error .emptyFrame => .next s
  | .error .foreignFrame => .next (s.onReceiver Receiver.havoc)

end Sys2Proof.Machine
end

