-- ==== Sys2Proof/Machine/Step.lean ====
section
/-!
DEFINITION. One step: the next thing presented is taken, decoded and run; and how a word of the opcode table is
placed for the next step.
-/

namespace Sys2Proof.Machine

/-- One step: the host presents its next operation and the machine performs it to completion (R18). With
nothing presented the machine stays as it is (R33). Entry 1. -/
def step (s : State) : Host.Outcome State Fault Refusal :=
  match s.fetch with
  | none => .next s
  | some (p, s') => runPresented p s'

/-- The word `w` of the opcode table stands where the next step takes it (entries 1 and 19). -/
def State.withFetchWord (s : State) (nbits w : Nat) : State := s.presentWord nbits w

end Sys2Proof.Machine
end

