-- ==== Sys2Proof/Machine/Assembler.lean ====
section
/-!
DEFINITION. The assembler syntax of the host operations (R60) and the pseudo-operations with their expansions
(R61): one line of characters to the operation it spells. Entry 23.
-/

namespace Sys2Proof.Machine

/-- Why a line is no operation. -/
inductive AsmError where
  /-- a quote is not closed -/
  | quote
  /-- the mnemonic is none of R60 -/
  | mnemonic
  /-- an operand is missing, too many, or no literal of its type -/
  | operand
  deriving DecidableEq, Repr

/-! ### Pseudo-operations (R61) -/

/-- `configure b` and `configure b, dcmd`: the omitted command registers keep their values. -/
def configureBrightness (b : Byte) : Instr := .configure b none none
def configureData (b dcmd : Byte) : Instr := .configure b (some dcmd) none

/-- `dispnum value, minus`: no decimal places. -/
def dispnumWhole (value : Number) (minus : Bool) : Instr := .dispnum value 0 minus

/-! ### Splitting a line -/

/-- Where the scanner of a line stands: outside quotes, inside `"text"`, after `'`, or at the closing `'`. -/
inductive QuoteState where
  | outside
  | inText
  | inChar
  | charEnd
  deriving DecidableEq, Repr

/-- Split a line at its commas, outside quotes, up to its comment (R60). -/
def splitFields : QuoteState → List Char → List Char → Except AsmError (List (List Char))
  | .outside, acc, [] => .ok [acc.reverse]
  | .inText, _, [] => .error .quote
  | .inChar, _, [] => .error .quote
  | .charEnd, _, [] => .error .quote
  | .outside, acc, c :: cs =>
    if c = ';' then .ok [acc.reverse]
    else if c = ',' then (splitFields .outside [] cs).map (acc.reverse :: ·)
    else if c = '"' then splitFields .inText (c :: acc) cs
    else if c = '\'' then splitFields .inChar (c :: acc) cs
    else splitFields .outside (c :: acc) cs
  | .inText, acc, c :: cs => splitFields (if c = '"' then .outside else .inText) (c :: acc) cs
  | .inChar, acc, c :: cs => splitFields .charEnd (c :: acc) cs
  | .charEnd, acc, c :: cs => if c = '\'' then splitFields .outside (c :: acc) cs else .error .quote

/-- White space of a line. -/
def isBlankChar (c : Char) : Bool := c = ' ' || c = '\t'

/-- A field without the white space around it. -/
def trimField (cs : List Char) : List Char :=
  ((cs.dropWhile isBlankChar).reverse.dropWhile isBlankChar).reverse

/-! ### Literals (R60) -/

/-- The value of a digit character. -/
def digitValue (c : Char) : Option Nat :=
  if '0' ≤ c ∧ c ≤ '9' then some (c.toNat - '0'.toNat)
  else if 'a' ≤ c ∧ c ≤ 'f' then some (c.toNat - 'a'.toNat + 10)
  else if 'A' ≤ c ∧ c ≤ 'F' then some (c.toNat - 'A'.toNat + 10)
  else none

/-- The digits of a number in a base, after `acc`. -/
def digitsFrom (base : Nat) : Nat → List Char → Option Nat
  | acc, [] => some acc
  | acc, c :: cs =>
    match digitValue c with
    | some d => if d < base then digitsFrom base (acc * base + d) cs else none
    | none => none

/-- At least one digit in a base. -/
def digitsOf (base : Nat) (cs : List Char) : Option Nat := if cs = [] then none else digitsFrom base 0 cs

/-- A decimal, `0x` hexadecimal or `0b` binary number. -/
def natLiteral : List Char → Option Nat
  | '0' :: 'x' :: cs => digitsOf 16 cs
  | '0' :: 'b' :: cs => digitsOf 2 cs
  | cs => digitsOf 10 cs

/-- A number below 256. -/
def numberByte (cs : List Char) : Option Byte :=
  match natLiteral cs with
  | some n => if n < 256 then some (BitVec.ofNat 8 n) else none
  | none => none

/-- A byte: a number, `'c'` for a printable character, or `blank`. -/
def byteLiteral (cs : List Char) : Option Byte :=
  match cs with
  | ['\'', c, '\''] => if 0x20 ≤ c.toNat ∧ c.toNat ≤ 0x7E then some (BitVec.ofNat 8 c.toNat) else none
  | _ => if cs = ['b', 'l', 'a', 'n', 'k'] then some Config.blankCode else numberByte cs

/-- A byte or `absent` (R61). -/
def optionalByteLiteral (cs : List Char) : Option (Option Byte) :=
  if cs = ['a', 'b', 's', 'e', 'n', 't'] then some none else (byteLiteral cs).map some

/-- `on` is 1 and `off` is 0. -/
def onOffLiteral (cs : List Char) : Option Bool :=
  if cs = ['o', 'n'] then some true else if cs = ['o', 'f', 'f'] then some false else none

/-- `true` or `false`, the minus operand of DISPNUM. -/
def truthLiteral (cs : List Char) : Option Bool :=
  if cs = ['t', 'r', 'u', 'e'] then some true else if cs = ['f', 'a', 'l', 's', 'e'] then some false else none

/-- An unsigned decimal literal such as `3.14`, as numerator and denominator. -/
def decimalParts (cs : List Char) : Option (Nat × Nat) :=
  let whole := cs.takeWhile (· ≠ '.')
  match cs.dropWhile (· ≠ '.') with
  | [] => (digitsOf 10 whole).map (·, 1)
  | _ :: fraction =>
    match digitsOf 10 whole, digitsOf 10 fraction with
    | some _, some _ => (digitsOf 10 (whole ++ fraction)).map (·, 10 ^ fraction.length)
    | _, _ => none

/-- A decimal literal, read as the exact rational it spells. -/
def numberLiteral (cs : List Char) : Option Number :=
  match cs with
  | '-' :: rest => (decimalParts rest).map fun nd => .finite (mkRat (-(nd.1 : Int)) nd.2)
  | _ => (decimalParts cs).map fun nd => .finite (mkRat nd.1 nd.2)

/-- `"text"`: the ASCII codes of its characters, without a terminator. -/
def textLiteral (cs : List Char) : Option (List Byte) :=
  match cs with
  | '"' :: rest =>
    if rest.getLast? = some '"' ∧ rest.dropLast.all (fun c => c ≠ '"' && c.toNat < 128) then
      some (rest.dropLast.map fun c => BitVec.ofNat 8 c.toNat)
    else none
  | _ => none

/-- A pin identifier. -/
def pinLiteral (cs : List Char) : Option PinId := (natLiteral cs).map PinId.mk

/-! ### One line -/

/-- The operation that a mnemonic and its operand fields spell (R60, R61). -/
def assembleFields (mnemonic : List Char) (args : List (List Char)) : Except AsmError Instr :=
  let made (i : Option Instr) : Except AsmError Instr :=
    match i with
    | some i => .ok i
    | none => .error .operand
  if mnemonic = ['c', 'o', 'n', 's', 't', 'r', 'u', 'c', 't'] then
    match args with
    | [c, d] => made do return .construct (← pinLiteral c) (← pinLiteral d)
    | _ => .error .operand
  else if mnemonic = ['i', 'n', 'i', 't'] then made (if args = [] then some .init else none)
  else if mnemonic = ['c', 'o', 'n', 'f', 'i', 'g', 'u', 'r', 'e'] then
    match args with
    | [b] => made do return configureBrightness (← byteLiteral b)
    | [b, d] => made do return .configure (← byteLiteral b) (← optionalByteLiteral d) none
    | [b, d, a] => made do return .configure (← byteLiteral b) (← optionalByteLiteral d) (← optionalByteLiteral a)
    | _ => .error .operand
  else if mnemonic = ['s', 'e', 't', 'p', 'o', 'i', 'n', 't'] then
    match args with
    | [on] => made do return .setpoint (← onOffLiteral on)
    | _ => .error .operand
  else if mnemonic = ['w', 'r', 'i', 't', 'e', 'a', 'l', 'l'] then
    match args with
    | [a, b, c, d] =>
      made do return .writeall (← byteLiteral a) (← byteLiteral b) (← byteLiteral c) (← byteLiteral d)
    | _ => .error .operand
  else if mnemonic = ['w', 'r', 'i', 't', 'e', 'o', 'n', 'e'] then
    match args with
    | [p, d] => made do return .writeone (← byteLiteral p) (← byteLiteral d)
    | _ => .error .operand
  else if mnemonic = ['c', 'l', 'e', 'a', 'r'] then made (if args = [] then some .clear else none)
  else if mnemonic = ['d', 'i', 's', 'p', 'n', 'u', 'm'] then
    match args with
    | [v, m] => made do return dispnumWhole (← numberLiteral v) (← truthLiteral m)
    | [v, dp, m] => made do return .dispnum (← numberLiteral v) (← byteLiteral dp) (← truthLiteral m)
    | _ => .error .operand
  else if mnemonic = ['d', 'i', 's', 'p', 't', 'e', 'x', 't'] then
    match args with
    | [t, ms] => made do return .disptext (← textLiteral t) (← natLiteral ms)
    | _ => .error .operand
  else if mnemonic = ['s', 't', 'a', 'r', 't'] then made (if args = [] then some .start else none)
  else if mnemonic = ['s', 't', 'o', 'p'] then made (if args = [] then some .stop else none)
  else if mnemonic = ['w', 'r', 'i', 't', 'e', 'b', 'y', 't', 'e'] then
    match args with
    | [v] => made do return .writebyte (← byteLiteral v)
    | _ => .error .operand
  else if mnemonic = ['b', 'i', 't', 'd', 'e', 'l', 'a', 'y'] then made (if args = [] then some .bitdelay else none)
  else if mnemonic = ['e', 'n', 'c', 'o', 'd', 'e'] then
    match args with
    | [c] => made do return .encode (← byteLiteral c)
    | _ => .error .operand
  else .error .mnemonic

/-- Is a character part of a mnemonic, which is in lower case? -/
def isMnemonicChar (c : Char) : Bool := 'a' ≤ c && c ≤ 'z'

/-- One line of a program (R60): its operation, or nothing where it holds only white space and a comment. -/
def assembleLine (line : List Char) : Except AsmError (Option Instr) :=
  match splitFields .outside [] line with
  | .error e => .error e
  | .ok [] => .ok none
  | .ok (first :: more) =>
    let start := trimField first
    let mnemonic := start.takeWhile isMnemonicChar
    let operand := trimField (start.dropWhile isMnemonicChar)
    if start = [] ∧ more = [] then .ok none
    else if more = [] then
      (assembleFields mnemonic (if operand = [] then [] else [operand])).map some
    else (assembleFields mnemonic (operand :: more.map trimField)).map some

/-- A program (95_test_vectors.md section 3): what the host presents, in order. -/
def assembleProgram : List (List Char) → Except AsmError (List Presented)
  | [] => .ok []
  | line :: lines =>
    match assembleLine line, assembleProgram lines with
    | .ok (some i), .ok ps => .ok (encode i :: ps)
    | .ok none, .ok ps => .ok ps
    | .error e, _ => .error e
    | _, .error e => .error e

end Sys2Proof.Machine
end

