-- ==== Sys2Proof/WellFormed.lean ====
section
/-!
DEFINITION. The contract of an instruction's operands: the ranges R58 admits. An instruction outside it is
still presentable; the machine refuses it with the reason R109 gives (entry 26).
-/

namespace Sys2Proof

/-- The operands lie in the ranges R58 and R90 accept: two different pins, brightness 0..7, position 0..3,
decimal places 0 or 2. Every other operand is admitted at every value (R111). -/
def Instr.wellFormed : Instr → Bool
  | .construct clk dio => clk ≠ dio
  | .init => true
  | .configure b _ _ => b ≤ 7
  | .setpoint _ => true
  | .writeall _ _ _ _ => true
  | .writeone pos _ => pos ≤ 3
  | .clear => true
  | .dispnum _ dp _ => dp = 0 ∨ dp = 2
  | .disptext _ _ => true
  | .start => true
  | .stop => true
  | .writebyte _ => true
  | .bitdelay => true
  | .encode _ => true
  | .wireDataAuto => true
  | .wireDataFixed => true
  | .wireAddr _ _ => true
  | .wireDispctrl _ => true

end Sys2Proof
end

