-- ==== Sys2Proof/Safety.lean ====
section
/-!
DEFINITION. The terms claims are stated in: when the block is ready, the traces of R72 to R104 in closed form, the
answers to come, the invariant of the machine, and the parts of a state a claim compares.
-/

namespace Sys2Proof.Safety

open Sys2Proof.Machine

/-- The block can run an operation: it is constructed and none is in progress (R18, R110). -/
def Ready (s : State) : Prop := s.seq = .idle ∧ s.constructed = true

/-! ### Traces in closed form -/

/-- The events of START (R72). -/
def startEvents : List Event := [.clk .high, .dout .high, .dout .low, .clk .low]

/-- The events of STOP (R74). -/
def stopEvents : List Event := [.clk .low, .dout .low, .clk .high, .dout .high]

/-- The three events of data bit `i` (R76). -/
def bitEvents (v : Byte) (i : Nat) : List Event := [.clk .low, .dout (.ofBit (v.getLsbD i)), .clk .high]

/-- The events A6a and A6b, performed only when the byte is acknowledged (R76). -/
def reassertEvents : Level → List Event
  | .low => [.dout .low, .doe true]
  | .high => []

/-- The events of the acknowledge phase, A1 to A10, when `a` is sampled (R76). -/
def ackEvents (us : Nat) (a : Level) : List Event :=
  [.clk .low, .doe false, .clk .high, .waitUs us, .sample a] ++ reassertEvents a
    ++ [.waitUs us, .dout .low, .doe true, .waitUs us]

/-- The events of WRITEBYTE(v): data bits 0 to 7, then the acknowledge phase (R43, R76). -/
def byteEvents (us : Nat) (v : Byte) (a : Level) : List Event :=
  (List.range 8).flatMap (bitEvents v) ++ ackEvents us a

/-- The events of bytes in order, each with the answer it gets; `as` lists the answers. -/
def bytesEvents (us : Nat) (vs : List Byte) (as : List Level) : List Event :=
  (vs.zip as).flatMap fun va => byteEvents us va.1 va.2

/-- The events of one frame (R48). -/
def frameEvents (us : Nat) (vs : List Byte) (as : List Level) : List Event :=
  startEvents ++ bytesEvents us vs as ++ stopEvents

/-- The events of frames in order (R88). -/
def framesEvents (us : Nat) : List (List Byte) → List Level → List Event
  | [], _ => []
  | f :: fs, as => frameEvents us f (as.take f.length) ++ framesEvents us fs (as.drop f.length)

/-- The three frames that write one segment byte at one position (R95). -/
def oneFrames (dctrl pos seg : Byte) : List (List Byte) := [[0x44], [0xC0 ||| pos, seg], [dctrl]]

/-- The three frames that write four segment bytes (R94). -/
def allFrames (dctrl acmd : Byte) (segs : List Byte) : List (List Byte) := [[0x40], acmd :: segs, [dctrl]]

/-- The number of `WAIT_US` events of a trace (R140). -/
def waitUsCount (es : List Event) : Nat := es.countP fun e => match e with | .waitUs _ => true | _ => false

/-- The number of `WAIT_MS` events of a trace (R140). -/
def waitMsCount (es : List Event) : Nat := es.countP fun e => match e with | .waitMs _ => true | _ => false

/-! ### The environment's answers -/

/-- The next `n` answers, if nothing but SAMPLEs happens to the bus (R36). -/
def upcoming : Nat → Bus → List Level
  | 0, _ => []
  | n + 1, b => b.nextAnswer :: upcoming n b.takeAnswer

/-- The bus after `n` answers. -/
def afterAnswers : Nat → Bus → Bus
  | 0, b => b
  | n + 1, b => afterAnswers n b.takeAnswer

/-- `b'` has used up the next `n` answers of `b`. -/
def AnswersUsed (n : Nat) (b b' : Bus) : Prop :=
  b'.answers = (afterAnswers n b).answers ∧ b'.sampleDraws = (afterAnswers n b).sampleDraws

/-! ### Outcomes of an operation -/

/-- The operation is refused: the state is the one before it, with one more mark (R109, R113). -/
def refusedWith (s : State) (r : Reason) (p : Presented) : Host.Outcome State Fault Refusal :=
  .next { s with marks := s.marks ++ [⟨r, p⟩] }

/-- The outcome is a refusal of `s` whose recorded value is this code and operation: no state but the marks differs
(R109). -/
def RecordsRefusal (s : State) (code : Nat) (p : Presented) (o : Host.Outcome State Fault Refusal) : Prop :=
  ∃ m : Mark, m.value = (code, p) ∧ o = .next { s with marks := s.marks ++ [m] }

/-! ### Pads at rest (R39) -/

/-- The pads of the idle bus: both lines driven HIGH, nothing pulled (R39, R74). -/
def idlePads : Pads := { clkOE := true, clkO := .driven .high, dioOE := true, dioO := .driven .high, pull := false }

/-- The pads after a START (R39, R72). -/
def openPads : Pads := { clkOE := true, clkO := .driven .low, dioOE := true, dioO := .driven .low, pull := false }

/-- The pads right after CONSTRUCT (R38). -/
def freshPads : Pads := { clkOE := true, clkO := .undef, dioOE := true, dioO := .undef, pull := false }

/-- The pads after a WRITEBYTE: CLK HIGH, DIO driven LOW; the peripheral may still pull (R39, R76, R120). -/
def bytePads (pull : Bool) : Pads :=
  { clkOE := true, clkO := .driven .high, dioOE := true, dioO := .driven .low, pull := pull }

/-- The levels R39 admits between operations, after CONSTRUCT. -/
def AtRest (p : Pads) : Prop := p = freshPads ∨ p = idlePads ∨ p = openPads ∨ ∃ pull, p = bytePads pull

/-- The receiver has heard the lines as they stand. -/
def Heard (b : Bus) : Prop := b.rx.seenClk = b.pads.clkHeard ∧ b.rx.seenDio = b.pads.dioHeard

/-- A bus on which the next START is heard: idle, or fresh from CONSTRUCT with no frame open (R135). -/
def Settled (b : Bus) : Prop := (b.pads = idlePads ∨ (b.pads = freshPads ∧ b.rx.inFrame = false)) ∧ Heard b

/-- The bus after frames of at least one byte each: their events traced, their answers used, the last
acknowledge bit in ACK, the lines idle. What the far side makes of it, `rx` and `pull`, is no concern of the block. -/
def busAfterFrames (us : Nat) (fs : List (List Byte)) (rx : Receiver) (pull : Bool) (b : Bus) : Bus :=
  { afterAnswers (fs.map List.length).sum b with
    trace := b.trace ++ framesEvents us fs (upcoming (fs.map List.length).sum b)
    shift := 0
    bitcnt := 8
    ack := (upcoming (fs.map List.length).sum b).getLastD .low
    pads := { clkOE := b.pads.clkOE, clkO := .driven .high, dioOE := true, dioO := .driven .high, pull := pull }
    rx := rx }

/-! ### The invariant of the machine -/

/-- What every step keeps: between operations the sequencer is IDLE (R33); `DCTRL[7:3]` is 0b10001 (R20); the
receiver holds at most a byte of levels (R121) and has heard the lines; the pads are at rest (R39); the two
pins differ once bound (R90); and an unconstructed block has driven nothing (R110). -/
structure MachineInv (s : State) : Prop where
  idle : s.seq = .idle
  control : s.dctrl.extractLsb' 3 5 = 0b10001#5
  collecting : s.bus.rx.bits.length ≤ 8
  heard : Heard s.bus
  rest : AtRest s.bus.pads
  pins : s.constructed = true → s.pbClk ≠ s.pbDio
  silent : s.constructed = false → s.bus.pads = freshPads ∧ s.bus.trace = []

/-! ### Parts of a state that claims compare -/

/-- The outcome with its next state mapped. -/
def mapNext (f : State → State) : Host.Outcome State Fault Refusal → Host.Outcome State Fault Refusal
  | .next s => .next (f s)
  | .fault r => .fault r
  | .refused r => .refused r

/-- The state with another receiver on the bus. -/
def withReceiver (rx : Receiver) (s : State) : State := { s with bus := { s.bus with rx := rx } }

/-! ### The arithmetic of the rendering rules, as the rules write it -/

/-- `m = floor(|q| · 10^dp + 1/2)` (R98). -/
def rounded (q : Rat) (dp : Byte) : Nat := ⌊|q| * 10 ^ dp.toNat + 1 / 2⌋₊

/-- `value < 0` (R101). -/
def negative : Number → Bool
  | .finite q => decide (q < 0)
  | .negInf => true
  | .posInf => false
  | .nan => false

/-- The value is finite and its rounded magnitude is at most `2^(w-1) - 1` (R99): that magnitude. -/
def inRange (w : Nat) (dp : Byte) : Number → Option Nat
  | .finite q => if rounded q dp ≤ 2 ^ (w - 1) - 1 then some (rounded q dp) else none
  | .posInf => none
  | .negInf => none
  | .nan => none

/-- The input code DISPNUM writes at the `i`-th numeral position from the right: digit `i` of `m`, or the blank
where nothing of `m` remains (R101). -/
def numeralCode (m i : Nat) : Byte := if m / 10 ^ i = 0 then Config.blankCode else BitVec.ofNat 8 (m / 10 ^ i % 10)

/-- The number of numeral positions: one is kept for the minus glyph (R101). -/
def numeralCount (neg : Bool) : Nat := if neg then 3 else 4

/-- The four input codes of the window that starts at index `n - 4` of a text (R104, R106). -/
def windowCodes (text : List Byte) (n : Nat) : List Byte :=
  (List.range 4).map fun j => if 4 ≤ n + j ∧ n + j < text.length + 4 then text.getD (n + j - 4) Config.blankCode
    else Config.blankCode

end Sys2Proof.Safety
end

