-- ==== Sys2Proof/Certificates/Slice0/Obligations.lean ====
section
/-!
DEFINITION. The statements for the provers. `Ready s`: the block is constructed and no operation is in progress.
In every equation of a next state, the fields that are not named keep their values: that is the frame. The far side of
the bus, the receiver `rx` and the environment's pull `pull`, is left open by the statements about the block; the
statements about the receiver and `PullLastsUntilFallingEdge` say what becomes of it.
-/

open Sys2Proof Sys2Proof.Machine Sys2Proof.Safety

/-! ### Reset and construction -/

/-- The machine before CONSTRUCT, with the registers at the values R38 names. The model's choice, entries 2 and
3: R38 gives these values for the state after CONSTRUCT, and no operation reads them before it. -/
def Obligations.ResetHoldsDefaultsUnconstructed : Prop :=
  State.reset.constructed = false ∧ State.reset.seq = .idle ∧ State.reset.dctrl = 0x8A ∧
    State.reset.dcmd = 0x40 ∧ State.reset.acmd = 0xC0 ∧ State.reset.point = false ∧
    State.reset.bus.pads = freshPads ∧ State.reset.bus.trace = [] ∧ State.reset.marks = [] ∧ State.reset.host = []

/-- R90. CONSTRUCT binds the pins and sets the defaults once; a second one, and equal pins, are refused. SHIFT, BITCNT,
ACK and SEGBUF are unspecified after it (R38). The model's choice, entry 4: the receiver hears nothing where the lines
were those of R38 before, because an unwritten line has one level, the same after CONSTRUCT as before it. -/
def Obligations.ConstructBindsPinsOnce : Prop :=
  ∀ (s : State) (clk dio : PinId), s.seq = .idle →
    encode (.construct clk dio) = .op ⟨0x01, [.pin clk, .pin dio]⟩ ∧
    (s.constructed = true →
      exec (.construct clk dio) s = refusedWith s .alreadyConstructed (encode (.construct clk dio))) ∧
    (s.constructed = false → clk = dio →
      exec (.construct clk dio) s = refusedWith s .samePin (encode (.construct clk dio))) ∧
    (s.constructed = false → clk ≠ dio →
      ∃ rx pull shift bitcnt ack segbuf, (s.bus.pads = freshPads → Heard s.bus → rx = s.bus.rx) ∧
        exec (.construct clk dio) s = .next { s with
          segbuf := segbuf
          pbClk := clk
          pbDio := dio
          dctrl := 0x88 + s.params.defaultBrightness.setWidth 8
          dcmd := 0x40
          acmd := 0xC0
          point := false
          constructed := true
          ret := .none
          bus := { s.bus with
            trace := s.bus.trace ++ [.coe true, .doe true]
            pads := { clkOE := true, clkO := .undef, dioOE := true, dioO := .undef, pull := pull }
            shift := shift
            bitcnt := bitcnt
            ack := ack
            rx := rx } })

/-! ### Configuration -/

/-- R92. CONFIGURE stores the configuration and touches nothing else; a brightness above 7 is refused. -/
def Obligations.ConfigureStoresOrRefuses : Prop :=
  ∀ (s : State) (b : Byte) (dcmd acmd : Option Byte),
    encode (.configure b dcmd acmd) = .op ⟨0x03, [.byte b, .byteOrAbsent dcmd, .byteOrAbsent acmd]⟩ ∧
    (Ready s → b ≤ 7 →
      exec (.configure b dcmd acmd) s = .next { s with
        dctrl := 0x88 ||| b
        dcmd := (match dcmd with | some d => d | none => s.dcmd)
        acmd := (match acmd with | some a => a | none => s.acmd)
        ret := .none }) ∧
    (Ready s → b > 7 →
      exec (.configure b dcmd acmd) s = refusedWith s .brightnessRange (encode (.configure b dcmd acmd))) ∧
    (s.seq = .idle → s.constructed = false →
      exec (.configure b dcmd acmd) s = refusedWith s .unconstructed (encode (.configure b dcmd acmd)))

/-- R93. SETPOINT stores the point flag and touches nothing else. -/
def Obligations.SetpointStoresPoint : Prop :=
  ∀ (s : State) (on : Bool),
    encode (.setpoint on) = .op ⟨0x04, [.bit on]⟩ ∧
    (Ready s → exec (.setpoint on) s = .next { s with point := on, ret := .none }) ∧
    (s.seq = .idle → s.constructed = false →
      exec (.setpoint on) s = refusedWith s .unconstructed (encode (.setpoint on)))

/-- R24. A configuration write, an ENCODE and a refusal emit no event and leave the pads and everything else on
the bus as they were. -/
def Obligations.ConfigurationWritesAreSilent : Prop :=
  ∀ (i : Instr) (s t : State), exec i s = .next t →
    ((∃ b d a, i = .configure b d a) ∨ (∃ on, i = .setpoint on) ∨ (∃ c, i = .encode c) ∨ t.marks ≠ s.marks) →
    t.bus = s.bus

/-- DCTRL, DCMD and ACMD are written by CONSTRUCT and CONFIGURE only (R20, R21, R22), POINT by CONSTRUCT, SETPOINT
and DISPNUM only (R23). -/
def Obligations.OnlyTheNamedOperationsWriteConfiguration : Prop :=
  ∀ (i : Instr) (s t : State), exec i s = .next t →
    ((∀ clk dio, i ≠ .construct clk dio) → (∀ b d a, i ≠ .configure b d a) →
      t.dctrl = s.dctrl ∧ t.dcmd = s.dcmd ∧ t.acmd = s.acmd) ∧
    ((∀ clk dio, i ≠ .construct clk dio) → (∀ on, i ≠ .setpoint on) → (∀ v dp minus, i ≠ .dispnum v dp minus) →
      t.point = s.point)

/-! ### The segment encoder -/

/-- R80. ENCODE returns the segment byte by the resolution order, the point bit ORed in, and writes nothing. -/
def Obligations.EncodeResolvesInOrder : Prop :=
  ∀ (s : State) (c : Byte),
    encode (.encode c) = .op ⟨0x14, [.byte c]⟩ ∧
    (Ready s → exec (.encode c) s = .next { s with
      ret := .segment ((if c = Config.blankCode then 0
        else if c ≤ 15 then numeral s.params c
        else if 0x30 ≤ c ∧ c ≤ 0x39 then numeral s.params (c - 0x30)
        else charTable s.params c) ||| (if s.point then 0x80 else 0)) }) ∧
    (s.seq = .idle → s.constructed = false →
      exec (.encode c) s = refusedWith s .unconstructed (encode (.encode c)))

/-- R82, R87. Under every admitted pair of tables: bit 7 of an encoded byte is the point flag, the other bits do
not depend on it; integers 0 to 15 give their table entry; a digit character gives its integer's byte; the blank
gives 0x00 or 0x80. -/
def Obligations.EncodedByteProperties : Prop :=
  ∀ (p : Config.Params) (point : Bool) (c : Byte),
    encodeCode p point c = encodeCode p false c ||| (if point then 0x80 else 0) ∧
    (encodeCode p point c).getLsbD 7 = point ∧
    (∀ i, i < 7 → (encodeCode p point c).getLsbD i = (encodeCode p false c).getLsbD i) ∧
    (∀ k : Fin 16, (encodeCode p point (BitVec.ofNat 8 k)).setWidth 7 = p.numeralTable[k]) ∧
    (∀ k : Fin 10, encodeCode p point (BitVec.ofNat 8 (0x30 + k)) = encodeCode p point (BitVec.ofNat 8 k)) ∧
    encodeCode p point Config.blankCode = (if point then 0x80 else 0x00)

/-- The constraints (a), (b) and (c) of R84 on CHAR_TABLE, for every list of glyphs. -/
def Obligations.CharacterTableIsAdmitted : Prop :=
  ∀ (p : Config.Params) (c : Byte),
    (charTable p c).getLsbD 7 = false ∧
    charTable p 0x42 = charTable p 0x62 ∧
    ((0x10 ≤ c ∧ c ≤ 0x1F) ∨ 0x80 ≤ c → charTable p c = 0) ∧
    ((∀ e ∈ p.charGlyphs, e.1 ≠ glyphKey c) → charTable p c = 0)

/-- The numeral table of R83, entry by entry, as the parameters of this spec hold it. The values are the spec's own
decision (D6), marked there as general knowledge. -/
def Obligations.NumeralTableValues : Prop :=
  (List.range 16).map (fun k => numeral Config.params (BitVec.ofNat 8 k)) =
    [0x3F, 0x06, 0x5B, 0x4F, 0x66, 0x6D, 0x7D, 0x07, 0x7F, 0x6F, 0x77, 0x7C, 0x39, 0x5E, 0x79, 0x71]

/-! ### The Bus Transport -/

/-- R72. START: its four events, both lines LOW at the end, nothing else but the far side of the bus. -/
def Obligations.StartDrivesStartCondition : Prop :=
  ∀ s : State,
    encode .start = .op ⟨0x10, []⟩ ∧
    (Ready s → ∃ rx pull, exec .start s = .next { s with
      ret := .none
      bus := { s.bus with
        trace := s.bus.trace ++ [.clk .high, .dout .high, .dout .low, .clk .low]
        pads := { s.bus.pads with clkO := .driven .low, dioO := .driven .low, pull := pull }
        rx := rx } }) ∧
    (s.seq = .idle → s.constructed = false → exec .start s = refusedWith s .unconstructed (encode .start))

/-- R74. STOP: its four events, both lines HIGH at the end, nothing else but the far side of the bus. -/
def Obligations.StopDrivesStopCondition : Prop :=
  ∀ s : State,
    encode .stop = .op ⟨0x11, []⟩ ∧
    (Ready s → ∃ rx pull, exec .stop s = .next { s with
      ret := .none
      bus := { s.bus with
        trace := s.bus.trace ++ [.clk .low, .dout .low, .clk .high, .dout .high]
        pads := { s.bus.pads with
          clkO := .driven .high
          dioO := .driven .high
          pull := pull }
        rx := rx } }) ∧
    (s.seq = .idle → s.constructed = false → exec .stop s = refusedWith s .unconstructed (encode .stop))

/-- R76, R78. WRITEBYTE(v): the data bits from bit 0 to bit 7, the acknowledge phase A1 to A10, SHIFT = 0,
BITCNT = 8, ACK the sampled answer, which is returned; DIO is left driven LOW with CLK HIGH. One answer of the
environment is used (R36). -/
def Obligations.WritebyteSendsBitsThenSamples : Prop :=
  ∀ (s : State) (v : Byte),
    encode (.writebyte v) = .op ⟨0x12, [.byte v]⟩ ∧
    (Ready s → ∃ rx pull, exec (.writebyte v) s = .next { s with
      ret := .ack s.bus.nextAnswer
      bus := { s.bus.takeAnswer with
        shift := 0
        bitcnt := 8
        ack := s.bus.nextAnswer
        trace := s.bus.trace ++ (List.range 8).flatMap
            (fun i => [.clk .low, .dout (if v.getLsbD i then .high else .low), .clk .high])
          ++ [.clk .low, .doe false, .clk .high, .waitUs s.params.bitDelayUs, .sample s.bus.nextAnswer]
          ++ (if s.bus.nextAnswer = .low then [.dout .low, .doe true] else [])
          ++ [.waitUs s.params.bitDelayUs, .dout .low, .doe true, .waitUs s.params.bitDelayUs]
        pads := { s.bus.pads with
          clkO := .driven .high
          dioOE := true
          dioO := .driven .low
          pull := pull }
        rx := rx } }) ∧
    (s.seq = .idle → s.constructed = false →
      exec (.writebyte v) s = refusedWith s .unconstructed (encode (.writebyte v)))

/-- The environment's pull on DIO, in the model (entry 6, from R120): it is the answer from a WRITEBYTE on, and it ends
at the next falling CLK edge, that of a START, of a STOP from CLK HIGH, or of the next byte. -/
def Obligations.PullLastsUntilFallingEdge : Prop :=
  ∀ s : State, Ready s →
    (∃ t, exec .start s = .next t ∧ t.bus.pads.pull = false) ∧
    (∃ t, exec .stop s = .next t ∧
      t.bus.pads.pull = (s.bus.pads.pull && !(s.bus.pads.clkO == .driven .high))) ∧
    (∃ t, exec .bitdelay s = .next t ∧ t.bus.pads = s.bus.pads) ∧
    (∀ v, ∃ t, exec (.writebyte v) s = .next t ∧ t.bus.pads.pull = (s.bus.nextAnswer = .low : Bool))

/-- A peripheral that begins its acknowledge pull at event A1 (R134): from A1 to the release at A2 the block still drives
bit 7, so the DIO line is unspecified when bit 7 is HIGH, and CLK is LOW, so the receiver hears no start or stop
condition and no bit. The bus is that inside a WRITEBYTE; the reference receiver does not pull there (R120). Which
environments pull early is data of the model's answers, entries 5 and 6. -/
def Obligations.EarlyAcknowledgePullContends : Prop :=
  ∀ (b a : Bus) (v : Byte), b.pads.clkOE = true → b.pads.dioOE = true →
    a = (Bus.sendBits 8 (b.loadShift v)).ackFall →
    (∀ us, b.writeByte us v = Bus.ackPhase us (Bus.sendBits 8 (b.loadShift v))) ∧
    a.pads.dioOE = true ∧ a.pads.dioO = .driven (if v.getLsbD 7 then .high else .low) ∧
    (∀ as, b.answers = .oracle (⟨.low, true⟩ :: as) → v.getLsbD 7 = true → a.pads.dioLine = .undef) ∧
    (v.getLsbD 7 = false → a.pads.dioLine = .driven .low) ∧
    (b.answers = .reference ∨ (∃ as, b.answers = .oracle (⟨.low, false⟩ :: as)) ∨ b.nextAnswer = .high →
      a.pads.dioLine = a.pads.dioO) ∧
    a.pads.clkLine = .driven .low ∧ a.release.pads.clkLine = .driven .low ∧
    ∀ c, (c = a ∨ c = a.release) →
      c.rx.inFrame = (Bus.sendBits 8 (b.loadShift v)).rx.inFrame ∧
      c.rx.bits = (Bus.sendBits 8 (b.loadShift v)).rx.bits ∧
      c.rx.bytes = (Bus.sendBits 8 (b.loadShift v)).rx.bytes

/-- R79. BITDELAY: one wait of BIT_DELAY_US, and no other effect on the block. The model's choices: the environment's
pull does not change during the wait (entry 6), and a receiver that has heard the lines, be they unwritten (entry 4),
hears nothing. -/
def Obligations.BitdelayWaitsOnce : Prop :=
  ∀ s : State,
    encode .bitdelay = .op ⟨0x13, []⟩ ∧
    (Ready s → ∃ rx, (Heard s.bus → s.bus.pads.contends = false → rx = s.bus.rx) ∧
      exec .bitdelay s = .next { s with
        ret := .none
        bus := { s.bus with trace := s.bus.trace ++ [.waitUs s.params.bitDelayUs], rx := rx } }) ∧
    (s.seq = .idle → s.constructed = false → exec .bitdelay s = refusedWith s .unconstructed (encode .bitdelay))

/-- The level on the DIO line (R16): driven, released HIGH, pulled LOW, and unspecified under contention. -/
def Obligations.DioLineLevel : Prop :=
  ∀ p : Pads,
    (p.dioOE = true → (p.pull = false ∨ p.dioO ≠ .driven .high) → p.dioLine = p.dioO) ∧
    (p.dioOE = true → p.pull = true → p.dioO = .driven .high → p.dioLine = .undef) ∧
    (p.dioOE = false → p.pull = true → p.dioLine = .driven .low) ∧
    (p.dioOE = false → p.pull = false → p.dioLine = .driven .high)

/-- The number of events of WRITEBYTE is 35 or 33 (R76), with three `WAIT_US` (R140); of WRITEONE 24 + 4 · 33 and 2
more for each acknowledged byte (R95), with 12; of WRITEALL 24 + 7 · 33 and 2 more for each (R94), with 21. -/
def Obligations.EventAndWaitCounts : Prop :=
  (∀ (s t : State) (v : Byte), Ready s → exec (.writebyte v) s = .next t →
    t.bus.trace.length = s.bus.trace.length + (if s.bus.nextAnswer = .low then 35 else 33) ∧
    waitUsCount t.bus.trace = waitUsCount s.bus.trace + 3) ∧
  (∀ (s t : State) (pos d : Byte), Ready s → pos ≤ 3 → exec (.writeone pos d) s = .next t →
    t.bus.trace.length = s.bus.trace.length + 24 + 4 * 33 + 2 * (upcoming 4 s.bus).count .low ∧
    waitUsCount t.bus.trace = waitUsCount s.bus.trace + 12) ∧
  (∀ (s t : State) (d0 d1 d2 d3 : Byte), Ready s → exec (.writeall d0 d1 d2 d3) s = .next t →
    t.bus.trace.length = s.bus.trace.length + 24 + 7 * 33 + 2 * (upcoming 7 s.bus).count .low ∧
    waitUsCount t.bus.trace = waitUsCount s.bus.trace + 21)

/-! ### The display operations -/

/-- R94. WRITEALL encodes its four inputs into SEGBUF and sends the frames `[0x40]`, `[ACMD, four bytes]`, `[DCTRL]`;
nothing else changes. -/
def Obligations.WriteallSendsThreeFrames : Prop :=
  ∀ (s : State) (d0 d1 d2 d3 : Byte),
    encode (.writeall d0 d1 d2 d3) = .op ⟨0x05, [.byte d0, .byte d1, .byte d2, .byte d3]⟩ ∧
    (Ready s → ∃ rx pull, exec (.writeall d0 d1 d2 d3) s = .next { s with
      segbuf := #v[encodeCode s.params s.point d0, encodeCode s.params s.point d1,
        encodeCode s.params s.point d2, encodeCode s.params s.point d3]
      ret := .none
      bus := busAfterFrames s.params.bitDelayUs
        [[0x40],
         [s.acmd, encodeCode s.params s.point d0, encodeCode s.params s.point d1,
          encodeCode s.params s.point d2, encodeCode s.params s.point d3],
         [s.dctrl]] rx pull s.bus }) ∧
    (s.seq = .idle → s.constructed = false →
      exec (.writeall d0 d1 d2 d3) s = refusedWith s .unconstructed (encode (.writeall d0 d1 d2 d3)))

/-- R95. WRITEONE sends the frames `[0x44]`, `[0xC0 | pos, byte]`, `[DCTRL]`; a position above 3 is refused. -/
def Obligations.WriteoneSendsThreeFrames : Prop :=
  ∀ (s : State) (pos d : Byte),
    encode (.writeone pos d) = .op ⟨0x06, [.byte pos, .byte d]⟩ ∧
    (Ready s → pos ≤ 3 → ∃ rx pull, exec (.writeone pos d) s = .next { s with
      ret := .none
      bus := busAfterFrames s.params.bitDelayUs
        [[0x44], [0xC0 ||| pos, encodeCode s.params s.point d], [s.dctrl]] rx pull s.bus }) ∧
    (Ready s → pos > 3 →
      exec (.writeone pos d) s = refusedWith s .positionRange (encode (.writeone pos d))) ∧
    (s.seq = .idle → s.constructed = false →
      exec (.writeone pos d) s = refusedWith s .unconstructed (encode (.writeone pos d)))

/-- R96. CLEAR writes the blank at positions 0, 1, 2, 3 in that order, each in the three frames of a WRITEONE; the
blank is 0x00, or 0x80 with POINT = 1. -/
def Obligations.ClearBlanksFourPositions : Prop :=
  ∀ s : State,
    encode .clear = .op ⟨0x07, []⟩ ∧
    (Ready s → ∃ rx pull, exec .clear s = .next { s with
      ret := .none
      bus := busAfterFrames s.params.bitDelayUs
        ([0, 1, 2, 3].flatMap fun p : Byte =>
          [[0x44], [0xC0 ||| p, if s.point then 0x80 else 0x00], [s.dctrl]]) rx pull s.bus }) ∧
    (s.seq = .idle → s.constructed = false → exec .clear s = refusedWith s .unconstructed (encode .clear))

/-- R91. INIT performs exactly CLEAR: it completes where CLEAR does, with the same next state. -/
def Obligations.InitIsClear : Prop :=
  ∀ s : State,
    encode .init = .op ⟨0x02, []⟩ ∧
    (Ready s → ∃ t, exec .init s = .next t ∧ exec .clear s = .next t ∧ t.dctrl = s.dctrl ∧ t.dcmd = s.dcmd ∧
      t.acmd = s.acmd ∧ t.point = s.point ∧ t.marks = s.marks) ∧
    (s.seq = .idle → s.constructed = false → exec .init s = refusedWith s .unconstructed (encode .init))

/-- R98. The magnitude DISPNUM renders is `floor(|q| · 10^dp + 1/2)` over the exact rationals. -/
def Obligations.MagnitudeRoundsToNearest : Prop :=
  ∀ (q : Rat) (dp : Byte), scaledMagnitude q dp = ⌊|q| * 10 ^ dp.toNat + 1 / 2⌋₊

/-- R99, R101, R102, R103. DISPNUM: POINT first; then the numeral positions from position 3 leftward, digit `i` of the
magnitude or the blank where it is in range, a free byte each where it is not; then the minus glyph at position 0. A
dp other than 0 and 2 is refused. Every position is written in the three frames of a WRITEONE. -/
def Obligations.DispnumRendersNumber : Prop :=
  ∀ (s : State) (value : Number) (dp : Byte) (minus : Bool),
    encode (.dispnum value dp minus) = .op ⟨0x08, [.number value, .byte dp, .bit minus]⟩ ∧
    (Ready s → dp = 0 ∨ dp = 2 →
      ∃ rx pull, exec (.dispnum value dp minus) s = .next { s with
        point := (dp = 2 : Bool)
        ret := .none
        byteDraws := s.byteDraws +
          (if (inRange s.params.hostIntBits dp value).isSome then 0 else numeralCount (minus && negative value))
        bus := busAfterFrames s.params.bitDelayUs
          ((List.range (numeralCount (minus && negative value))).flatMap (fun i =>
              oneFrames s.dctrl (BitVec.ofNat 8 (3 - i))
                (match inRange s.params.hostIntBits dp value with
                 | some m => encodeCode s.params (dp = 2 : Bool) (numeralCode m i)
                 | none => Config.freeByte (s.byteDraws + i)))
            ++ (if minus && negative value then
                  oneFrames s.dctrl 0 (encodeCode s.params (dp = 2 : Bool) Config.minusCode)
                else []))
          rx pull s.bus }) ∧
    (Ready s → dp ≠ 0 → dp ≠ 2 →
      exec (.dispnum value dp minus) s = refusedWith s .decimalPlaces (encode (.dispnum value dp minus))) ∧
    (s.seq = .idle → s.constructed = false →
      exec (.dispnum value dp minus) s = refusedWith s .unconstructed (encode (.dispnum value dp minus)))

/-- R105. A text of at most four codes: one WRITEALL of its codes, left-aligned, blanks after them, and no wait. -/
def Obligations.DisptextFitsInOneWrite : Prop :=
  ∀ (s : State) (text : List Byte) (ms : Nat), Ready s → text.length ≤ 4 →
    ∃ t, exec (.disptext text ms) s = .next t ∧
      exec (.writeall (text.getD 0 Config.blankCode) (text.getD 1 Config.blankCode)
        (text.getD 2 Config.blankCode) (text.getD 3 Config.blankCode)) s = .next t ∧
      waitMsCount t.bus.trace = waitMsCount s.bus.trace

/-- R104, R106. A text of L > 4 codes scrolls: windows starting at -4 to L, each the three frames of a WRITEALL, with
`WAIT_MS(ms)` before every window but the first; nothing but SEGBUF and the bus changes. -/
def Obligations.DisptextScrollsWindows : Prop :=
  ∀ (s : State) (text : List Byte) (ms : Nat), Ready s → 4 < text.length →
    ∃ t, exec (.disptext text ms) s = .next t ∧
      t = { s with segbuf := Vector.replicate 4 (encodeCode s.params s.point Config.blankCode), ret := .none, bus := t.bus } ∧
      t.bus.trace = s.bus.trace ++ (List.range (text.length + 5)).flatMap (fun n =>
        (if n = 0 then [] else [.waitMs ms]) ++
          framesEvents s.params.bitDelayUs
            (allFrames s.dctrl s.acmd ((windowCodes text n).map (encodeCode s.params s.point)))
            (((upcoming (7 * (text.length + 5)) s.bus).drop (7 * n)).take 7)) ∧
      t.bus.pads = { idlePads with clkOE := s.bus.pads.clkOE, pull := t.bus.pads.pull } ∧ t.bus.shift = 0 ∧
      t.bus.bitcnt = 8 ∧ t.bus.ack = (upcoming (7 * (text.length + 5)) s.bus).getLastD .low ∧
      AnswersUsed (7 * (text.length + 5)) s.bus t.bus

/-- R39. INIT, WRITEALL, WRITEONE, CLEAR, DISPNUM and DISPTEXT end on the idle bus: CLK HIGH, DIO HIGH, DIO driven. -/
def Obligations.DisplayOperationsEndIdle : Prop :=
  ∀ (i : Instr) (s : State), Ready s → i.wellFormed = true → s.bus.pads.clkOE = true →
    (i = .init ∨ (∃ a b c d, i = .writeall a b c d) ∨ (∃ p d, i = .writeone p d) ∨ i = .clear ∨
      (∃ v dp m, i = .dispnum v dp m) ∨ (∃ text ms, i = .disptext text ms)) →
    ∃ t, exec i s = .next t ∧ t.bus.pads = idlePads

/-- The waits of the rendering operations (R140): CLEAR and DISPNUM 48 `WAIT_US`; DISPTEXT 21 where the text fits; in a
scroll 21 for each of the L + 5 windows, and L + 4 `WAIT_MS`. -/
def Obligations.RenderingWaitCounts : Prop :=
  (∀ s t : State, Ready s → exec .clear s = .next t →
    waitUsCount t.bus.trace = waitUsCount s.bus.trace + 48 ∧ waitMsCount t.bus.trace = waitMsCount s.bus.trace) ∧
  (∀ (s t : State) (value : Number) (dp : Byte) (minus : Bool), Ready s → dp = 0 ∨ dp = 2 →
    exec (.dispnum value dp minus) s = .next t →
    waitUsCount t.bus.trace = waitUsCount s.bus.trace + 48 ∧ waitMsCount t.bus.trace = waitMsCount s.bus.trace) ∧
  (∀ (s t : State) (text : List Byte) (ms : Nat), Ready s → exec (.disptext text ms) s = .next t →
    waitUsCount t.bus.trace =
      waitUsCount s.bus.trace + 21 * (if text.length ≤ 4 then 1 else text.length + 5) ∧
    waitMsCount t.bus.trace = waitMsCount s.bus.trace + (if text.length ≤ 4 then 0 else text.length + 4))

/-! ### The wire commands and the reference receiver -/

/-- R123. The data-write command frames set MODE. The model's choice, entry 18: executing one delivers its frame whole
to the receiver and touches nothing else, not even a frame that is being heard. -/
def Obligations.WireDataSetsMode : Prop :=
  ∀ s : State,
    exec .wireDataAuto s = .next { s with bus := { s.bus with rx := { s.bus.rx with mode := .auto } } } ∧
    exec .wireDataFixed s = .next { s with bus := { s.bus with rx := { s.bus.rx with mode := .fixed } } }

/-- R125. The display-control frame sets DISP_ON and DISP_BRIGHT. The model's choice, entry 18: executing it delivers
its frame whole to the receiver and touches nothing else, not even a frame that is being heard. -/
def Obligations.WireDispctrlSetsBrightness : Prop :=
  ∀ (s : State) (b : BitVec 3),
    exec (.wireDispctrl b) s =
      .next { s with bus := { s.bus with rx := { s.bus.rx with dispOn := true, dispBright := b } } }

/-- R124. The address frame: in FIXED mode every payload byte goes to the addressed position, so the last one stays; in
AUTO mode consecutive bytes fill consecutive positions; one that runs past position 3 leaves the receiver's state
free. The model's choices: executing the command delivers its frame whole to the receiver and touches nothing else
(entry 18), and the havoc spares the frame that is being heard and the levels heard (entry 16). -/
def Obligations.WireAddrWritesPositions : Prop :=
  ∀ (s : State) (p : BitVec 2) (payload : List Byte),
    (s.bus.rx.mode = .fixed ∨ payload.length ≤ 1 →
      exec (.wireAddr p payload) s = .next { s with bus := { s.bus with rx := { s.bus.rx with
        ram := (match payload.getLast? with
          | some b => s.bus.rx.ram.setIfInBounds p.toNat b
          | none => s.bus.rx.ram) } } }) ∧
    (s.bus.rx.mode = .auto → p.toNat + payload.length ≤ 4 →
      exec (.wireAddr p payload) s = .next { s with bus := { s.bus with rx := { s.bus.rx with
        ram := Vector.ofFn fun j : Fin 4 =>
          if p.toNat ≤ j then payload.getD (j - p.toNat) s.bus.rx.ram[j] else s.bus.rx.ram[j] } } }) ∧
    (s.bus.rx.mode = .auto → 4 < p.toNat + payload.length →
      exec (.wireAddr p payload) s = .next { s with bus := { s.bus with rx := { s.bus.rx with
        mode := Config.freeMode s.bus.rx.draws
        ram := Config.freeRam s.bus.rx.draws
        dispBright := Config.freeBright s.bus.rx.draws
        dispOn := Config.freeOn s.bus.rx.draws
        draws := s.bus.rx.draws + 1 } } })

/-- A frame outside the source leaves the receiver's state free (R126); an empty frame does nothing (R135). The model's
choices: the frame is delivered whole to the receiver, by an entry of its own in `host`, and nothing else changes
(entry 18), and the havoc spares the frame that is being heard, its bits and bytes, and the levels heard (entry 16). -/
def Obligations.ForeignFrameHavocsReceiver : Prop :=
  ∀ (s : State) (rest : List Presented) (c : Byte) (payload : List Byte),
    (s.host = .frame (c :: payload) :: rest → ¬ (0xC0 ≤ c ∧ c ≤ 0xC3) →
      (payload ≠ [] ∨ (c ≠ 0x40 ∧ c ≠ 0x44 ∧ ¬ (0x88 ≤ c ∧ c ≤ 0x8F))) →
      step s = .next { s with
        host := rest
        bus := { s.bus with rx := { s.bus.rx with
          mode := Config.freeMode s.bus.rx.draws
          ram := Config.freeRam s.bus.rx.draws
          dispBright := Config.freeBright s.bus.rx.draws
          dispOn := Config.freeOn s.bus.rx.draws
          draws := s.bus.rx.draws + 1 } } }) ∧
    (s.host = .frame [] :: rest → step s = .next { s with host := rest })

/-- In an open frame, an acknowledged WRITEBYTE is heard as its byte; one that is not acknowledged makes a start condition
in the middle of the frame, so that byte collection begins anew (R133, R121). The model's choices: how long an environment
pulls for its answer, so that DIO is still LOW when the block drives it again (entry 6), and that a byte is complete at its
eighth data bit (entry 17). -/
def Obligations.UnacknowledgedByteRestartsFrame : Prop :=
  ∀ (s : State) (v : Byte), Ready s → (s.bus.pads = openPads ∨ ∃ pull, s.bus.pads = bytePads pull) →
    Heard s.bus → s.bus.rx.inFrame = true → s.bus.rx.bits = [] →
    ∃ t, exec (.writebyte v) s = .next t ∧
      t.bus.rx = { s.bus.rx with
        bytes := (if s.bus.nextAnswer = .low then s.bus.rx.bytes ++ [v] else [])
        seenClk := .high
        seenDio := .low }

/-- WRITEALL as the display shows it, when every byte is acknowledged and ACMD is 0xC0 (R44, R69, R121 to R127): from a
settled bus the reference receiver decodes the pad events back into the four encoded bytes, position by position,
AUTO mode, and the brightness of DCTRL. It rests on the model's choices of how an unwritten line is heard (entry 4) and
how long an acknowledgement is pulled (entry 6). An ACMD other than 0xC0 is left out here; the frames it gives are those
of WriteallSendsThreeFrames. -/
def Obligations.WriteallIsShown : Prop :=
  ∀ (s : State) (d0 d1 d2 d3 : Byte), Ready s → Settled s.bus → s.acmd = 0xC0 →
    s.dctrl.extractLsb' 3 5 = 0b10001#5 → (∀ a ∈ upcoming 7 s.bus, a = .low) →
    ∃ t, exec (.writeall d0 d1 d2 d3) s = .next t ∧ Settled t.bus ∧
      t.bus.rx = { s.bus.rx with
        mode := .auto
        ram := #v[encodeCode s.params s.point d0, encodeCode s.params s.point d1,
          encodeCode s.params s.point d2, encodeCode s.params s.point d3]
        dispOn := true
        dispBright := s.dctrl.extractLsb' 0 3
        inFrame := false
        bits := []
        bytes := []
        seenClk := .high
        seenDio := .high }

/-- WRITEONE as the display shows it, when every byte is acknowledged: the addressed position takes the encoded byte and
the other three keep theirs. It rests on the model's choices of how an unwritten line is heard (entry 4) and how long an
acknowledgement is pulled (entry 6). -/
def Obligations.WriteoneIsShown : Prop :=
  ∀ (s : State) (pos d : Byte), Ready s → Settled s.bus → pos ≤ 3 →
    s.dctrl.extractLsb' 3 5 = 0b10001#5 → (∀ a ∈ upcoming 4 s.bus, a = .low) →
    ∃ t, exec (.writeone pos d) s = .next t ∧ Settled t.bus ∧
      t.bus.rx = { s.bus.rx with
        mode := .fixed
        ram := s.bus.rx.ram.setIfInBounds pos.toNat (encodeCode s.params s.point d)
        dispOn := true
        dispBright := s.dctrl.extractLsb' 0 3
        inFrame := false
        bits := []
        bytes := []
        seenClk := .high
        seenDio := .high }

/-- DISPNUM of an in-range value as the display shows it, when every byte is acknowledged: the four low decimal digits,
or three and the minus glyph, blanks to the left, POINT in every position. It rests on the model's choices of entries 4
and 6. Out-of-range and non-finite values are left out here; their frames are those of DispnumRendersNumber. -/
def Obligations.DispnumIsShown : Prop :=
  ∀ (s : State) (q : Rat) (dp : Byte) (minus : Bool), Ready s → Settled s.bus → dp = 0 ∨ dp = 2 →
    rounded q dp ≤ 2 ^ (s.params.hostIntBits - 1) - 1 →
    s.dctrl.extractLsb' 3 5 = 0b10001#5 → (∀ a ∈ upcoming 16 s.bus, a = .low) →
    ∃ t, exec (.dispnum (.finite q) dp minus) s = .next t ∧ Settled t.bus ∧
      t.bus.rx.mode = .fixed ∧ t.bus.rx.dispOn = true ∧ t.bus.rx.dispBright = s.dctrl.extractLsb' 0 3 ∧
      t.bus.rx.ram = #v[
        encodeCode s.params (dp = 2 : Bool)
          (if minus = true ∧ q < 0 then Config.minusCode else numeralCode (rounded q dp) 3),
        encodeCode s.params (dp = 2 : Bool) (numeralCode (rounded q dp) 2),
        encodeCode s.params (dp = 2 : Bool) (numeralCode (rounded q dp) 1),
        encodeCode s.params (dp = 2 : Bool) (numeralCode (rounded q dp) 0)]

/-- The block does not depend on the reference receiver (R3, R120): with another receiver on the bus every instruction
has the same outcome, but for the receiver. -/
def Obligations.BlockDoesNotReadReceiver : Prop :=
  ∀ (i : Instr) (s : State) (rx rx₀ : Receiver),
    mapNext (withReceiver rx₀) (exec i (withReceiver rx s)) = mapNext (withReceiver rx₀) (exec i s)

/-! ### Refusals -/

/-- R110, R112. The refusal reported is the first of: an unknown opcode; construction (missing, or done already); the
operand check. A refused operation changes nothing but the marks. -/
def Obligations.RefusalsInOrder : Prop :=
  (∀ (s : State) (o : HostOp) (rest : List Presented), s.seq = .idle → s.host = .op o :: rest →
    (o.op = 0x00 ∨ (0x0A ≤ o.op ∧ o.op ≤ 0x0F) ∨ 0x15 ≤ o.op) →
    step s = refusedWith { s with host := rest } .unknownOp (.op o)) ∧
  (∀ (s : State) (i : Instr), s.seq = .idle → i.isHostOp = true → s.constructed = false →
    (∀ clk dio, i ≠ .construct clk dio) → exec i s = refusedWith s .unconstructed (encode i)) ∧
  (∀ (s : State) (clk dio : PinId), s.seq = .idle → s.constructed = true →
    exec (.construct clk dio) s = refusedWith s .alreadyConstructed (encode (.construct clk dio))) ∧
  (∀ (s : State) (i : Instr), s.seq = .idle → i.isHostOp = true → i.wellFormed = false →
    ((∃ clk dio, i = .construct clk dio) ↔ s.constructed = false) →
    ∃ r, exec i s = refusedWith s r (encode i) ∧
      ((r = .samePin ∧ ∃ p, i = .construct p p) ∨ (r = .brightnessRange ∧ ∃ b d a, i = .configure b d a ∧ b > 7) ∨
       (r = .positionRange ∧ ∃ p d, i = .writeone p d ∧ p > 3) ∨
       (r = .decimalPlaces ∧ ∃ v dp m, i = .dispnum v dp m ∧ dp ≠ 0 ∧ dp ≠ 2)))

/-- R109. A refusal changes nothing but the marks, and records the code of its reason, 1 to 7, and the operation as
presented; no later step clears it. -/
def Obligations.RefusalsRecordCodeAndOperation : Prop :=
  (∀ s : State, s.seq = .idle →
    (∀ o rest, s.host = .op o :: rest → (o.op = 0x00 ∨ (0x0A ≤ o.op ∧ o.op ≤ 0x0F) ∨ 0x15 ≤ o.op) →
      RecordsRefusal { s with host := rest } 1 (.op o) (step s)) ∧
    (∀ i : Instr, i.isHostOp = true → (∀ clk dio, i ≠ .construct clk dio) → s.constructed = false →
      RecordsRefusal s 2 (encode i) (exec i s)) ∧
    (∀ clk dio, s.constructed = true →
      RecordsRefusal s 3 (encode (.construct clk dio)) (exec (.construct clk dio) s)) ∧
    (∀ pin, s.constructed = false →
      RecordsRefusal s 4 (encode (.construct pin pin)) (exec (.construct pin pin) s)) ∧
    (∀ b dcmd acmd, s.constructed = true → b > 7 →
      RecordsRefusal s 5 (encode (.configure b dcmd acmd)) (exec (.configure b dcmd acmd) s)) ∧
    (∀ pos d, s.constructed = true → pos > 3 →
      RecordsRefusal s 6 (encode (.writeone pos d)) (exec (.writeone pos d) s)) ∧
    (∀ value dp minus, s.constructed = true → dp ≠ 0 → dp ≠ 2 →
      RecordsRefusal s 7 (encode (.dispnum value dp minus)) (exec (.dispnum value dp minus) s))) ∧
  ∀ s t : State, step s = .next t → s.marks.map Mark.value <+: t.marks.map Mark.value

/-- R111. Nothing else is refused: on a ready block every operation with admitted operands completes without a mark,
whatever its codes, its number, its text, and the environment's answers. -/
def Obligations.AdmittedOperationsAreNotRefused : Prop :=
  ∀ (i : Instr) (s : State), Ready s → i.isHostOp = true → i.wellFormed = true →
    (∀ clk dio, i ≠ .construct clk dio) → ∃ t, exec i s = .next t ∧ t.marks = s.marks ∧ t.seq = .idle

/-- A host operation presented during another has no step: the fault `overlap` (R136, U18; the model's form, entry 9). -/
def Obligations.OverlappingOperationFaults : Prop :=
  ∀ (s : State) (i op : Instr), s.seq = .busy op → i.isHostOp = true → exec i s = .fault .overlap

/-- The codes of the refusal reasons are the seven of R109: no step from an idle machine stops with a fault, and it
stops with a refusal only on an operand list of another shape than its opcode's (R57; entry 10). -/
def Obligations.IdleMachineAlwaysSteps : Prop :=
  ∀ s : State, s.seq = .idle →
    (∃ t, step s = .next t) ∨
      (∃ o rest, s.host = .op o :: rest ∧ decode (.op o) = .error .operandShape ∧ step s = .refused .operandShape)

/-! ### Decoding and the step -/

/-- Decoding what an instruction presents gives the instruction back, for every instruction and every operand. -/
def Obligations.DecodeOfEncode : Prop :=
  ∀ i : Instr, decode (encode i) = .ok i

/-- Whatever decodes to an instruction is what that instruction presents: no two presentations spell one instruction. -/
def Obligations.EncodeOfDecode : Prop :=
  ∀ (p : Presented) (i : Instr), decode p = .ok i → encode i = p

/-- Words of the spec's encodings decode to the instructions they stand for (R58, R64, R65, R66). -/
def Obligations.SpecWordsDecode : Prop :=
  decode (.op ⟨0b00000001, [.pin ⟨2⟩, .pin ⟨3⟩]⟩) = .ok (.construct ⟨2⟩ ⟨3⟩) ∧
  decode (.op ⟨0b00000110, [.byte 3, .byte 0x35]⟩) = .ok (.writeone 3 0x35) ∧
  decode (.op ⟨0b00001001, [.text [0x41, 0x42], .natural 500]⟩) = .ok (.disptext [0x41, 0x42] 500) ∧
  decode (.op ⟨0b00010010, [.byte 0b10110000]⟩) = .ok (.writebyte 0xB0) ∧
  decode (.op ⟨0b00010100, [.byte 0x7F]⟩) = .ok (.encode 0x7F) ∧
  decode (.frame [0b01000000]) = .ok .wireDataAuto ∧
  decode (.frame [0b01000100]) = .ok .wireDataFixed ∧
  decode (.frame [0b11000010, 0x5B]) = .ok (.wireAddr 2 [0x5B]) ∧
  decode (.frame [0b10001111]) = .ok (.wireDispctrl 7) ∧
  decode (.op ⟨0x0A, []⟩) = .error .unknownOp ∧
  decode (.frame [0x80]) = .error .foreignFrame

/-- A step takes what is presented first and, where it decodes to an instruction, runs that instruction; with nothing
presented the machine stays as it is. -/
def Obligations.StepRunsDecodedInstruction : Prop :=
  (∀ (s : State) (p : Presented) (rest : List Presented) (i : Instr), s.host = p :: rest → decode p = .ok i →
    step s = exec i { s with host := rest }) ∧
  (∀ s : State, s.host = [] → step s = .next s)

/-! ### Rules of the whole machine -/

/-- The invariant holds at reset. -/
def Obligations.ResetMeetsInvariant : Prop := MachineInv State.reset

/-- Every step keeps the invariant: the sequencer is IDLE between operations (R33), `DCTRL[7:3]` is 0b10001 (R20), the pads
stand as R39 says, the two pins differ (R90), and an unconstructed block has driven nothing (R110). -/
def Obligations.StepKeepsInvariant : Prop :=
  ∀ s t : State, MachineInv s → step s = .next t → MachineInv t

/-- R109. No operation clears a refusal mark, and none takes an event back from the trace: both only grow. -/
def Obligations.MarksAndTraceOnlyGrow : Prop :=
  ∀ s t : State, step s = .next t →
    (∃ ms, t.marks = s.marks ++ ms ∧ ms.length ≤ 1) ∧ (∃ es, t.bus.trace = s.bus.trace ++ es)

/-- The pin identifiers are immutable once bound (R25), a constructed block stays constructed (R128), and the tables and
parameters are never written (R34). -/
def Obligations.BindingsAndTablesAreImmutable : Prop :=
  ∀ s t : State, step s = .next t →
    t.params = s.params ∧
      (s.constructed = true → t.constructed = true ∧ t.pbClk = s.pbClk ∧ t.pbDio = s.pbDio)
end

