-- ==== Sys2Proof/Laws/State.lean ====
section
/-!
SUPPORT. One lemma for each field of each update of the state, true by rfl, so that no later proof unfolds a
record update.
-/

namespace Sys2Proof.Machine

/-! ### Run part of the bus -/

@[simp] theorem State.onBus_params (f : Bus → Bus) (s : State) : (State.onBus f s).params = s.params := rfl
@[simp] theorem State.onBus_host (f : Bus → Bus) (s : State) : (State.onBus f s).host = s.host := rfl
@[simp] theorem State.onBus_seq (f : Bus → Bus) (s : State) : (State.onBus f s).seq = s.seq := rfl
@[simp] theorem State.onBus_constructed (f : Bus → Bus) (s : State) : (State.onBus f s).constructed = s.constructed := rfl
@[simp] theorem State.onBus_pbClk (f : Bus → Bus) (s : State) : (State.onBus f s).pbClk = s.pbClk := rfl
@[simp] theorem State.onBus_pbDio (f : Bus → Bus) (s : State) : (State.onBus f s).pbDio = s.pbDio := rfl
@[simp] theorem State.onBus_dctrl (f : Bus → Bus) (s : State) : (State.onBus f s).dctrl = s.dctrl := rfl
@[simp] theorem State.onBus_dcmd (f : Bus → Bus) (s : State) : (State.onBus f s).dcmd = s.dcmd := rfl
@[simp] theorem State.onBus_acmd (f : Bus → Bus) (s : State) : (State.onBus f s).acmd = s.acmd := rfl
@[simp] theorem State.onBus_point (f : Bus → Bus) (s : State) : (State.onBus f s).point = s.point := rfl
@[simp] theorem State.onBus_segbuf (f : Bus → Bus) (s : State) : (State.onBus f s).segbuf = s.segbuf := rfl
@[simp] theorem State.onBus_bus (f : Bus → Bus) (s : State) : (State.onBus f s).bus = f s.bus := rfl
@[simp] theorem State.onBus_ret (f : Bus → Bus) (s : State) : (State.onBus f s).ret = s.ret := rfl
@[simp] theorem State.onBus_marks (f : Bus → Bus) (s : State) : (State.onBus f s).marks = s.marks := rfl
@[simp] theorem State.onBus_byteDraws (f : Bus → Bus) (s : State) : (State.onBus f s).byteDraws = s.byteDraws := rfl

/-! ### Refuse -/

@[simp] theorem State.refuse_params (r : Reason) (p : Presented) (s : State) : (State.refuse r p s).params = s.params := rfl
@[simp] theorem State.refuse_host (r : Reason) (p : Presented) (s : State) : (State.refuse r p s).host = s.host := rfl
@[simp] theorem State.refuse_seq (r : Reason) (p : Presented) (s : State) : (State.refuse r p s).seq = s.seq := rfl
@[simp] theorem State.refuse_constructed (r : Reason) (p : Presented) (s : State) : (State.refuse r p s).constructed = s.constructed := rfl
@[simp] theorem State.refuse_pbClk (r : Reason) (p : Presented) (s : State) : (State.refuse r p s).pbClk = s.pbClk := rfl
@[simp] theorem State.refuse_pbDio (r : Reason) (p : Presented) (s : State) : (State.refuse r p s).pbDio = s.pbDio := rfl
@[simp] theorem State.refuse_dctrl (r : Reason) (p : Presented) (s : State) : (State.refuse r p s).dctrl = s.dctrl := rfl
@[simp] theorem State.refuse_dcmd (r : Reason) (p : Presented) (s : State) : (State.refuse r p s).dcmd = s.dcmd := rfl
@[simp] theorem State.refuse_acmd (r : Reason) (p : Presented) (s : State) : (State.refuse r p s).acmd = s.acmd := rfl
@[simp] theorem State.refuse_point (r : Reason) (p : Presented) (s : State) : (State.refuse r p s).point = s.point := rfl
@[simp] theorem State.refuse_segbuf (r : Reason) (p : Presented) (s : State) : (State.refuse r p s).segbuf = s.segbuf := rfl
@[simp] theorem State.refuse_bus (r : Reason) (p : Presented) (s : State) : (State.refuse r p s).bus = s.bus := rfl
@[simp] theorem State.refuse_ret (r : Reason) (p : Presented) (s : State) : (State.refuse r p s).ret = s.ret := rfl
@[simp] theorem State.refuse_marks (r : Reason) (p : Presented) (s : State) : (State.refuse r p s).marks = s.marks ++ [⟨r, p⟩] := rfl
@[simp] theorem State.refuse_byteDraws (r : Reason) (p : Presented) (s : State) : (State.refuse r p s).byteDraws = s.byteDraws := rfl

/-! ### Begin -/

@[simp] theorem State.begin_params (i : Instr) (s : State) : (State.begin i s).params = s.params := rfl
@[simp] theorem State.begin_host (i : Instr) (s : State) : (State.begin i s).host = s.host := rfl
@[simp] theorem State.begin_seq (i : Instr) (s : State) : (State.begin i s).seq = .busy i := rfl
@[simp] theorem State.begin_constructed (i : Instr) (s : State) : (State.begin i s).constructed = s.constructed := rfl
@[simp] theorem State.begin_pbClk (i : Instr) (s : State) : (State.begin i s).pbClk = s.pbClk := rfl
@[simp] theorem State.begin_pbDio (i : Instr) (s : State) : (State.begin i s).pbDio = s.pbDio := rfl
@[simp] theorem State.begin_dctrl (i : Instr) (s : State) : (State.begin i s).dctrl = s.dctrl := rfl
@[simp] theorem State.begin_dcmd (i : Instr) (s : State) : (State.begin i s).dcmd = s.dcmd := rfl
@[simp] theorem State.begin_acmd (i : Instr) (s : State) : (State.begin i s).acmd = s.acmd := rfl
@[simp] theorem State.begin_point (i : Instr) (s : State) : (State.begin i s).point = s.point := rfl
@[simp] theorem State.begin_segbuf (i : Instr) (s : State) : (State.begin i s).segbuf = s.segbuf := rfl
@[simp] theorem State.begin_bus (i : Instr) (s : State) : (State.begin i s).bus = s.bus := rfl
@[simp] theorem State.begin_ret (i : Instr) (s : State) : (State.begin i s).ret = s.ret := rfl
@[simp] theorem State.begin_marks (i : Instr) (s : State) : (State.begin i s).marks = s.marks := rfl
@[simp] theorem State.begin_byteDraws (i : Instr) (s : State) : (State.begin i s).byteDraws = s.byteDraws := rfl

/-! ### Finish -/

@[simp] theorem State.finish_params (r : Ret) (s : State) : (State.finish r s).params = s.params := rfl
@[simp] theorem State.finish_host (r : Ret) (s : State) : (State.finish r s).host = s.host := rfl
@[simp] theorem State.finish_seq (r : Ret) (s : State) : (State.finish r s).seq = .idle := rfl
@[simp] theorem State.finish_constructed (r : Ret) (s : State) : (State.finish r s).constructed = s.constructed := rfl
@[simp] theorem State.finish_pbClk (r : Ret) (s : State) : (State.finish r s).pbClk = s.pbClk := rfl
@[simp] theorem State.finish_pbDio (r : Ret) (s : State) : (State.finish r s).pbDio = s.pbDio := rfl
@[simp] theorem State.finish_dctrl (r : Ret) (s : State) : (State.finish r s).dctrl = s.dctrl := rfl
@[simp] theorem State.finish_dcmd (r : Ret) (s : State) : (State.finish r s).dcmd = s.dcmd := rfl
@[simp] theorem State.finish_acmd (r : Ret) (s : State) : (State.finish r s).acmd = s.acmd := rfl
@[simp] theorem State.finish_point (r : Ret) (s : State) : (State.finish r s).point = s.point := rfl
@[simp] theorem State.finish_segbuf (r : Ret) (s : State) : (State.finish r s).segbuf = s.segbuf := rfl
@[simp] theorem State.finish_bus (r : Ret) (s : State) : (State.finish r s).bus = s.bus := rfl
@[simp] theorem State.finish_ret (r : Ret) (s : State) : (State.finish r s).ret = r := rfl
@[simp] theorem State.finish_marks (r : Ret) (s : State) : (State.finish r s).marks = s.marks := rfl
@[simp] theorem State.finish_byteDraws (r : Ret) (s : State) : (State.finish r s).byteDraws = s.byteDraws := rfl

/-! ### Set the configuration -/

@[simp] theorem State.setConfig_params (b : Byte) (d a : Option Byte) (s : State) : (State.setConfig b d a s).params = s.params := rfl
@[simp] theorem State.setConfig_host (b : Byte) (d a : Option Byte) (s : State) : (State.setConfig b d a s).host = s.host := rfl
@[simp] theorem State.setConfig_seq (b : Byte) (d a : Option Byte) (s : State) : (State.setConfig b d a s).seq = s.seq := rfl
@[simp] theorem State.setConfig_constructed (b : Byte) (d a : Option Byte) (s : State) : (State.setConfig b d a s).constructed = s.constructed := rfl
@[simp] theorem State.setConfig_pbClk (b : Byte) (d a : Option Byte) (s : State) : (State.setConfig b d a s).pbClk = s.pbClk := rfl
@[simp] theorem State.setConfig_pbDio (b : Byte) (d a : Option Byte) (s : State) : (State.setConfig b d a s).pbDio = s.pbDio := rfl
@[simp] theorem State.setConfig_dctrl (b : Byte) (d a : Option Byte) (s : State) : (State.setConfig b d a s).dctrl = displayControl b := rfl
@[simp] theorem State.setConfig_dcmd (b : Byte) (d a : Option Byte) (s : State) : (State.setConfig b d a s).dcmd = d.getD s.dcmd := rfl
@[simp] theorem State.setConfig_acmd (b : Byte) (d a : Option Byte) (s : State) : (State.setConfig b d a s).acmd = a.getD s.acmd := rfl
@[simp] theorem State.setConfig_point (b : Byte) (d a : Option Byte) (s : State) : (State.setConfig b d a s).point = s.point := rfl
@[simp] theorem State.setConfig_segbuf (b : Byte) (d a : Option Byte) (s : State) : (State.setConfig b d a s).segbuf = s.segbuf := rfl
@[simp] theorem State.setConfig_bus (b : Byte) (d a : Option Byte) (s : State) : (State.setConfig b d a s).bus = s.bus := rfl
@[simp] theorem State.setConfig_ret (b : Byte) (d a : Option Byte) (s : State) : (State.setConfig b d a s).ret = s.ret := rfl
@[simp] theorem State.setConfig_marks (b : Byte) (d a : Option Byte) (s : State) : (State.setConfig b d a s).marks = s.marks := rfl
@[simp] theorem State.setConfig_byteDraws (b : Byte) (d a : Option Byte) (s : State) : (State.setConfig b d a s).byteDraws = s.byteDraws := rfl

/-! ### Set the point -/

@[simp] theorem State.setPoint_params (on : Bool) (s : State) : (State.setPoint on s).params = s.params := rfl
@[simp] theorem State.setPoint_host (on : Bool) (s : State) : (State.setPoint on s).host = s.host := rfl
@[simp] theorem State.setPoint_seq (on : Bool) (s : State) : (State.setPoint on s).seq = s.seq := rfl
@[simp] theorem State.setPoint_constructed (on : Bool) (s : State) : (State.setPoint on s).constructed = s.constructed := rfl
@[simp] theorem State.setPoint_pbClk (on : Bool) (s : State) : (State.setPoint on s).pbClk = s.pbClk := rfl
@[simp] theorem State.setPoint_pbDio (on : Bool) (s : State) : (State.setPoint on s).pbDio = s.pbDio := rfl
@[simp] theorem State.setPoint_dctrl (on : Bool) (s : State) : (State.setPoint on s).dctrl = s.dctrl := rfl
@[simp] theorem State.setPoint_dcmd (on : Bool) (s : State) : (State.setPoint on s).dcmd = s.dcmd := rfl
@[simp] theorem State.setPoint_acmd (on : Bool) (s : State) : (State.setPoint on s).acmd = s.acmd := rfl
@[simp] theorem State.setPoint_point (on : Bool) (s : State) : (State.setPoint on s).point = on := rfl
@[simp] theorem State.setPoint_segbuf (on : Bool) (s : State) : (State.setPoint on s).segbuf = s.segbuf := rfl
@[simp] theorem State.setPoint_bus (on : Bool) (s : State) : (State.setPoint on s).bus = s.bus := rfl
@[simp] theorem State.setPoint_ret (on : Bool) (s : State) : (State.setPoint on s).ret = s.ret := rfl
@[simp] theorem State.setPoint_marks (on : Bool) (s : State) : (State.setPoint on s).marks = s.marks := rfl
@[simp] theorem State.setPoint_byteDraws (on : Bool) (s : State) : (State.setPoint on s).byteDraws = s.byteDraws := rfl

/-! ### Load the segment buffer -/

@[simp] theorem State.loadSegbuf_params (d0 d1 d2 d3 : Byte) (s : State) : (State.loadSegbuf d0 d1 d2 d3 s).params = s.params := rfl
@[simp] theorem State.loadSegbuf_host (d0 d1 d2 d3 : Byte) (s : State) : (State.loadSegbuf d0 d1 d2 d3 s).host = s.host := rfl
@[simp] theorem State.loadSegbuf_seq (d0 d1 d2 d3 : Byte) (s : State) : (State.loadSegbuf d0 d1 d2 d3 s).seq = s.seq := rfl
@[simp] theorem State.loadSegbuf_constructed (d0 d1 d2 d3 : Byte) (s : State) : (State.loadSegbuf d0 d1 d2 d3 s).constructed = s.constructed := rfl
@[simp] theorem State.loadSegbuf_pbClk (d0 d1 d2 d3 : Byte) (s : State) : (State.loadSegbuf d0 d1 d2 d3 s).pbClk = s.pbClk := rfl
@[simp] theorem State.loadSegbuf_pbDio (d0 d1 d2 d3 : Byte) (s : State) : (State.loadSegbuf d0 d1 d2 d3 s).pbDio = s.pbDio := rfl
@[simp] theorem State.loadSegbuf_dctrl (d0 d1 d2 d3 : Byte) (s : State) : (State.loadSegbuf d0 d1 d2 d3 s).dctrl = s.dctrl := rfl
@[simp] theorem State.loadSegbuf_dcmd (d0 d1 d2 d3 : Byte) (s : State) : (State.loadSegbuf d0 d1 d2 d3 s).dcmd = s.dcmd := rfl
@[simp] theorem State.loadSegbuf_acmd (d0 d1 d2 d3 : Byte) (s : State) : (State.loadSegbuf d0 d1 d2 d3 s).acmd = s.acmd := rfl
@[simp] theorem State.loadSegbuf_point (d0 d1 d2 d3 : Byte) (s : State) : (State.loadSegbuf d0 d1 d2 d3 s).point = s.point := rfl
@[simp] theorem State.loadSegbuf_segbuf (d0 d1 d2 d3 : Byte) (s : State) : (State.loadSegbuf d0 d1 d2 d3 s).segbuf = #v[s.encodeCode d0, s.encodeCode d1, s.encodeCode d2, s.encodeCode d3] := rfl
@[simp] theorem State.loadSegbuf_bus (d0 d1 d2 d3 : Byte) (s : State) : (State.loadSegbuf d0 d1 d2 d3 s).bus = s.bus := rfl
@[simp] theorem State.loadSegbuf_ret (d0 d1 d2 d3 : Byte) (s : State) : (State.loadSegbuf d0 d1 d2 d3 s).ret = s.ret := rfl
@[simp] theorem State.loadSegbuf_marks (d0 d1 d2 d3 : Byte) (s : State) : (State.loadSegbuf d0 d1 d2 d3 s).marks = s.marks := rfl
@[simp] theorem State.loadSegbuf_byteDraws (d0 d1 d2 d3 : Byte) (s : State) : (State.loadSegbuf d0 d1 d2 d3 s).byteDraws = s.byteDraws := rfl

/-! ### Drive an event -/

@[simp] theorem Bus.drive_pads (e : Event) (p : Pads) (b : Bus) : (Bus.drive e p b).pads = p := rfl
@[simp] theorem Bus.drive_shift (e : Event) (p : Pads) (b : Bus) : (Bus.drive e p b).shift = b.shift := rfl
@[simp] theorem Bus.drive_bitcnt (e : Event) (p : Pads) (b : Bus) : (Bus.drive e p b).bitcnt = b.bitcnt := rfl
@[simp] theorem Bus.drive_ack (e : Event) (p : Pads) (b : Bus) : (Bus.drive e p b).ack = b.ack := rfl
@[simp] theorem Bus.drive_trace (e : Event) (p : Pads) (b : Bus) : (Bus.drive e p b).trace = b.trace ++ [e] := rfl
@[simp] theorem Bus.drive_answers (e : Event) (p : Pads) (b : Bus) : (Bus.drive e p b).answers = b.answers := rfl
@[simp] theorem Bus.drive_sampleDraws (e : Event) (p : Pads) (b : Bus) : (Bus.drive e p b).sampleDraws = b.sampleDraws := rfl
@[simp] theorem Bus.drive_rx (e : Event) (p : Pads) (b : Bus) : (Bus.drive e p b).rx = b.rx.listen b.trace.length p := rfl

/-! ### Emit an event -/

@[simp] theorem Bus.emit_pads (e : Event) (b : Bus) : (Bus.emit e b).pads = b.pads.apply e := rfl
@[simp] theorem Bus.emit_shift (e : Event) (b : Bus) : (Bus.emit e b).shift = b.shift := rfl
@[simp] theorem Bus.emit_bitcnt (e : Event) (b : Bus) : (Bus.emit e b).bitcnt = b.bitcnt := rfl
@[simp] theorem Bus.emit_ack (e : Event) (b : Bus) : (Bus.emit e b).ack = b.ack := rfl
@[simp] theorem Bus.emit_trace (e : Event) (b : Bus) : (Bus.emit e b).trace = b.trace ++ [e] := rfl
@[simp] theorem Bus.emit_answers (e : Event) (b : Bus) : (Bus.emit e b).answers = b.answers := rfl
@[simp] theorem Bus.emit_sampleDraws (e : Event) (b : Bus) : (Bus.emit e b).sampleDraws = b.sampleDraws := rfl
@[simp] theorem Bus.emit_rx (e : Event) (b : Bus) : (Bus.emit e b).rx = b.rx.listen b.trace.length (b.pads.apply e) := rfl

/-! ### Load the shift register -/

@[simp] theorem Bus.loadShift_pads (v : Byte) (b : Bus) : (Bus.loadShift v b).pads = b.pads := rfl
@[simp] theorem Bus.loadShift_shift (v : Byte) (b : Bus) : (Bus.loadShift v b).shift = v := rfl
@[simp] theorem Bus.loadShift_bitcnt (v : Byte) (b : Bus) : (Bus.loadShift v b).bitcnt = 0 := rfl
@[simp] theorem Bus.loadShift_ack (v : Byte) (b : Bus) : (Bus.loadShift v b).ack = b.ack := rfl
@[simp] theorem Bus.loadShift_trace (v : Byte) (b : Bus) : (Bus.loadShift v b).trace = b.trace := rfl
@[simp] theorem Bus.loadShift_answers (v : Byte) (b : Bus) : (Bus.loadShift v b).answers = b.answers := rfl
@[simp] theorem Bus.loadShift_sampleDraws (v : Byte) (b : Bus) : (Bus.loadShift v b).sampleDraws = b.sampleDraws := rfl
@[simp] theorem Bus.loadShift_rx (v : Byte) (b : Bus) : (Bus.loadShift v b).rx = b.rx := rfl

/-! ### Shift a bit out -/

@[simp] theorem Bus.shiftOut_pads (b : Bus) : (Bus.shiftOut b).pads = b.pads := rfl
@[simp] theorem Bus.shiftOut_shift (b : Bus) : (Bus.shiftOut b).shift = b.shift >>> 1 := rfl
@[simp] theorem Bus.shiftOut_bitcnt (b : Bus) : (Bus.shiftOut b).bitcnt = b.bitcnt + 1 := rfl
@[simp] theorem Bus.shiftOut_ack (b : Bus) : (Bus.shiftOut b).ack = b.ack := rfl
@[simp] theorem Bus.shiftOut_trace (b : Bus) : (Bus.shiftOut b).trace = b.trace := rfl
@[simp] theorem Bus.shiftOut_answers (b : Bus) : (Bus.shiftOut b).answers = b.answers := rfl
@[simp] theorem Bus.shiftOut_sampleDraws (b : Bus) : (Bus.shiftOut b).sampleDraws = b.sampleDraws := rfl
@[simp] theorem Bus.shiftOut_rx (b : Bus) : (Bus.shiftOut b).rx = b.rx := rfl

/-! ### Havoc of the receiver -/

@[simp] theorem Receiver.havoc_mode (rx : Receiver) : (Receiver.havoc rx).mode = Config.freeMode rx.draws := rfl
@[simp] theorem Receiver.havoc_ram (rx : Receiver) : (Receiver.havoc rx).ram = Config.freeRam rx.draws := rfl
@[simp] theorem Receiver.havoc_dispBright (rx : Receiver) : (Receiver.havoc rx).dispBright = Config.freeBright rx.draws := rfl
@[simp] theorem Receiver.havoc_dispOn (rx : Receiver) : (Receiver.havoc rx).dispOn = Config.freeOn rx.draws := rfl
@[simp] theorem Receiver.havoc_inFrame (rx : Receiver) : (Receiver.havoc rx).inFrame = rx.inFrame := rfl
@[simp] theorem Receiver.havoc_bits (rx : Receiver) : (Receiver.havoc rx).bits = rx.bits := rfl
@[simp] theorem Receiver.havoc_bytes (rx : Receiver) : (Receiver.havoc rx).bytes = rx.bytes := rfl
@[simp] theorem Receiver.havoc_seenClk (rx : Receiver) : (Receiver.havoc rx).seenClk = rx.seenClk := rfl
@[simp] theorem Receiver.havoc_seenDio (rx : Receiver) : (Receiver.havoc rx).seenDio = rx.seenDio := rfl
@[simp] theorem Receiver.havoc_draws (rx : Receiver) : (Receiver.havoc rx).draws = rx.draws + 1 := rfl

/-! ### Set the receiver's mode -/

@[simp] theorem Receiver.setMode_mode (m : RxMode) (rx : Receiver) : (Receiver.setMode m rx).mode = m := rfl
@[simp] theorem Receiver.setMode_ram (m : RxMode) (rx : Receiver) : (Receiver.setMode m rx).ram = rx.ram := rfl
@[simp] theorem Receiver.setMode_dispBright (m : RxMode) (rx : Receiver) : (Receiver.setMode m rx).dispBright = rx.dispBright := rfl
@[simp] theorem Receiver.setMode_dispOn (m : RxMode) (rx : Receiver) : (Receiver.setMode m rx).dispOn = rx.dispOn := rfl
@[simp] theorem Receiver.setMode_inFrame (m : RxMode) (rx : Receiver) : (Receiver.setMode m rx).inFrame = rx.inFrame := rfl
@[simp] theorem Receiver.setMode_bits (m : RxMode) (rx : Receiver) : (Receiver.setMode m rx).bits = rx.bits := rfl
@[simp] theorem Receiver.setMode_bytes (m : RxMode) (rx : Receiver) : (Receiver.setMode m rx).bytes = rx.bytes := rfl
@[simp] theorem Receiver.setMode_seenClk (m : RxMode) (rx : Receiver) : (Receiver.setMode m rx).seenClk = rx.seenClk := rfl
@[simp] theorem Receiver.setMode_seenDio (m : RxMode) (rx : Receiver) : (Receiver.setMode m rx).seenDio = rx.seenDio := rfl
@[simp] theorem Receiver.setMode_draws (m : RxMode) (rx : Receiver) : (Receiver.setMode m rx).draws = rx.draws := rfl

/-! ### Set the receiver's brightness -/

@[simp] theorem Receiver.setBright_mode (b : BitVec 3) (rx : Receiver) : (Receiver.setBright b rx).mode = rx.mode := rfl
@[simp] theorem Receiver.setBright_ram (b : BitVec 3) (rx : Receiver) : (Receiver.setBright b rx).ram = rx.ram := rfl
@[simp] theorem Receiver.setBright_dispBright (b : BitVec 3) (rx : Receiver) : (Receiver.setBright b rx).dispBright = b := rfl
@[simp] theorem Receiver.setBright_dispOn (b : BitVec 3) (rx : Receiver) : (Receiver.setBright b rx).dispOn = true := rfl
@[simp] theorem Receiver.setBright_inFrame (b : BitVec 3) (rx : Receiver) : (Receiver.setBright b rx).inFrame = rx.inFrame := rfl
@[simp] theorem Receiver.setBright_bits (b : BitVec 3) (rx : Receiver) : (Receiver.setBright b rx).bits = rx.bits := rfl
@[simp] theorem Receiver.setBright_bytes (b : BitVec 3) (rx : Receiver) : (Receiver.setBright b rx).bytes = rx.bytes := rfl
@[simp] theorem Receiver.setBright_seenClk (b : BitVec 3) (rx : Receiver) : (Receiver.setBright b rx).seenClk = rx.seenClk := rfl
@[simp] theorem Receiver.setBright_seenDio (b : BitVec 3) (rx : Receiver) : (Receiver.setBright b rx).seenDio = rx.seenDio := rfl
@[simp] theorem Receiver.setBright_draws (b : BitVec 3) (rx : Receiver) : (Receiver.setBright b rx).draws = rx.draws := rfl

/-! ### Start condition -/

@[simp] theorem Receiver.startCondition_mode (rx : Receiver) : (Receiver.startCondition rx).mode = rx.mode := rfl
@[simp] theorem Receiver.startCondition_ram (rx : Receiver) : (Receiver.startCondition rx).ram = rx.ram := rfl
@[simp] theorem Receiver.startCondition_dispBright (rx : Receiver) : (Receiver.startCondition rx).dispBright = rx.dispBright := rfl
@[simp] theorem Receiver.startCondition_dispOn (rx : Receiver) : (Receiver.startCondition rx).dispOn = rx.dispOn := rfl
@[simp] theorem Receiver.startCondition_inFrame (rx : Receiver) : (Receiver.startCondition rx).inFrame = true := rfl
@[simp] theorem Receiver.startCondition_bits (rx : Receiver) : (Receiver.startCondition rx).bits = [] := rfl
@[simp] theorem Receiver.startCondition_bytes (rx : Receiver) : (Receiver.startCondition rx).bytes = [] := rfl
@[simp] theorem Receiver.startCondition_seenClk (rx : Receiver) : (Receiver.startCondition rx).seenClk = rx.seenClk := rfl
@[simp] theorem Receiver.startCondition_seenDio (rx : Receiver) : (Receiver.startCondition rx).seenDio = rx.seenDio := rfl
@[simp] theorem Receiver.startCondition_draws (rx : Receiver) : (Receiver.startCondition rx).draws = rx.draws := rfl

end Sys2Proof.Machine
end

