-- ==== Sys2Proof/Laws/Bus.lean ====
section
/-!
SUPPORT. What the operations of the Bus Transport do: for each, its trace, its pads and its registers.
-/

namespace Sys2Proof.Machine

open Sys2Proof.Safety

/-! ### Pads under one event -/

@[simp] theorem Pads.apply_coe (p : Pads) (e : Bool) : p.apply (.coe e) = { p with clkOE := e } := rfl
@[simp] theorem Pads.apply_clk_high (p : Pads) : p.apply (.clk .high) = { p with clkO := .driven .high } := by
  simp [Pads.apply]
@[simp] theorem Pads.apply_clk_low (p : Pads) :
    p.apply (.clk .low) = { p with clkO := .driven .low, pull := p.pull && !(p.clkO == .driven .high) } := by
  simp [Pads.apply]
@[simp] theorem Pads.apply_dout (p : Pads) (l : Level) : p.apply (.dout l) = { p with dioO := .driven l } := rfl
@[simp] theorem Pads.apply_doe (p : Pads) (e : Bool) : p.apply (.doe e) = { p with dioOE := e } := rfl
@[simp] theorem Pads.apply_sample (p : Pads) (v : Level) : p.apply (.sample v) = p := rfl
@[simp] theorem Pads.apply_waitUs (p : Pads) (n : Nat) : p.apply (.waitUs n) = p := rfl
@[simp] theorem Pads.apply_waitMs (p : Pads) (n : Nat) : p.apply (.waitMs n) = p := rfl

/-! ### Answers -/

@[simp] theorem Bus.takeAnswer_pads (b : Bus) : b.takeAnswer.pads = b.pads := by
  unfold Bus.takeAnswer; split <;> rfl
@[simp] theorem Bus.takeAnswer_shift (b : Bus) : b.takeAnswer.shift = b.shift := by
  unfold Bus.takeAnswer; split <;> rfl
@[simp] theorem Bus.takeAnswer_bitcnt (b : Bus) : b.takeAnswer.bitcnt = b.bitcnt := by
  unfold Bus.takeAnswer; split <;> rfl
@[simp] theorem Bus.takeAnswer_ack (b : Bus) : b.takeAnswer.ack = b.ack := by
  unfold Bus.takeAnswer; split <;> rfl
@[simp] theorem Bus.takeAnswer_trace (b : Bus) : b.takeAnswer.trace = b.trace := by
  unfold Bus.takeAnswer; split <;> rfl
@[simp] theorem Bus.takeAnswer_rx (b : Bus) : b.takeAnswer.rx = b.rx := by
  unfold Bus.takeAnswer; split <;> rfl

/-- Two buses whose oracles stand alike answer alike. -/
theorem Bus.nextAnswer_congr {b c : Bus} (ha : b.answers = c.answers) (hd : b.sampleDraws = c.sampleDraws) :
    b.nextAnswer = c.nextAnswer := by simp only [Bus.nextAnswer, ha, hd]

/-- Whether a pull begins early depends on the answers only (R134). -/
theorem Bus.pullsEarly_congr {b c : Bus} (ha : b.answers = c.answers) (hd : b.sampleDraws = c.sampleDraws) :
    b.pullsEarly = c.pullsEarly := by
  simp only [Bus.pullsEarly, Bus.nextAnswer, ha, hd]

/-- Two buses whose oracles stand alike still do so after an answer. -/
theorem Bus.takeAnswer_congr {b c : Bus} (ha : b.answers = c.answers) (hd : b.sampleDraws = c.sampleDraws) :
    b.takeAnswer.answers = c.takeAnswer.answers ∧ b.takeAnswer.sampleDraws = c.takeAnswer.sampleDraws := by
  unfold Bus.takeAnswer
  rw [← ha]
  split <;> simp_all

end Sys2Proof.Machine

namespace Sys2Proof.Safety

open Sys2Proof.Machine

theorem upcoming_congr {b c : Bus} (n : Nat) (ha : b.answers = c.answers) (hd : b.sampleDraws = c.sampleDraws) :
    upcoming n b = upcoming n c := by
  induction n generalizing b c with
  | zero => rfl
  | succ n ih =>
    obtain ⟨ha', hd'⟩ := Bus.takeAnswer_congr ha hd
    simp only [upcoming, Bus.nextAnswer_congr ha hd, ih ha' hd']

theorem AnswersUsed.refl (b : Bus) : AnswersUsed 0 b b := ⟨rfl, rfl⟩

theorem afterAnswers_congr {b c : Bus} (n : Nat) (ha : b.answers = c.answers)
    (hd : b.sampleDraws = c.sampleDraws) : AnswersUsed n b (afterAnswers n c) := by
  induction n generalizing b c with
  | zero => exact ⟨ha.symm, hd.symm⟩
  | succ n ih =>
    obtain ⟨ha', hd'⟩ := Bus.takeAnswer_congr ha hd
    exact ih ha' hd'

theorem afterAnswers_add (m n : Nat) (b : Bus) : afterAnswers (m + n) b = afterAnswers n (afterAnswers m b) := by
  induction m generalizing b with
  | zero => simp [afterAnswers]
  | succ m ih => rw [Nat.succ_add]; exact ih b.takeAnswer

/-- Answers used in two parts. -/
theorem AnswersUsed.trans {m n : Nat} {a b c : Bus} (h₁ : AnswersUsed m a b) (h₂ : AnswersUsed n b c) :
    AnswersUsed (m + n) a c := by
  have h := afterAnswers_congr n h₁.1 h₁.2
  unfold AnswersUsed at *
  rw [afterAnswers_add]
  exact ⟨h₂.1.trans h.1.symm, h₂.2.trans h.2.symm⟩

theorem upcoming_length (n : Nat) (b : Bus) : (upcoming n b).length = n := by
  induction n generalizing b with
  | zero => rfl
  | succ n ih => simp [upcoming, ih]

theorem upcoming_add (m n : Nat) (b : Bus) : upcoming (m + n) b = upcoming m b ++ upcoming n (afterAnswers m b) := by
  induction m generalizing b with
  | zero => simp [upcoming, afterAnswers]
  | succ m ih => rw [Nat.succ_add]; simp [upcoming, afterAnswers, ih]

/-- The answers that come after `m` answers are used. -/
theorem AnswersUsed.upcoming_append {m : Nat} {a b : Bus} (h : AnswersUsed m a b) (n : Nat) :
    upcoming m a ++ upcoming n b = upcoming (m + n) a := by
  rw [upcoming_add, upcoming_congr n h.1 h.2]

end Sys2Proof.Safety

namespace Sys2Proof.Machine

open Sys2Proof.Safety

/-! ### What never changes on the bus side of START and STOP -/

theorem Bus.start_trace (b : Bus) : b.start.trace = b.trace ++ startEvents := by simp [Bus.start, startEvents]

theorem Bus.start_shift (b : Bus) : b.start.shift = b.shift := rfl
theorem Bus.start_bitcnt (b : Bus) : b.start.bitcnt = b.bitcnt := rfl
theorem Bus.start_ack (b : Bus) : b.start.ack = b.ack := rfl
theorem Bus.start_answersUsed (b : Bus) : AnswersUsed 0 b b.start := ⟨rfl, rfl⟩

/-- START ends with both lines LOW and no pull (R72): its last event is a falling CLK edge. -/
theorem Bus.start_pads (b : Bus) :
    b.start.pads = { b.pads with clkO := .driven .low, dioO := .driven .low, pull := false } := by
  simp [Bus.start]

theorem Bus.stop_trace (b : Bus) : b.stop.trace = b.trace ++ stopEvents := by simp [Bus.stop, stopEvents]

theorem Bus.stop_shift (b : Bus) : b.stop.shift = b.shift := rfl
theorem Bus.stop_bitcnt (b : Bus) : b.stop.bitcnt = b.bitcnt := rfl
theorem Bus.stop_ack (b : Bus) : b.stop.ack = b.ack := rfl
theorem Bus.stop_answersUsed (b : Bus) : AnswersUsed 0 b b.stop := ⟨rfl, rfl⟩

/-- STOP ends with both lines HIGH (R74). -/
theorem Bus.stop_pads (b : Bus) :
    b.stop.pads = { b.pads with
      clkO := .driven .high, dioO := .driven .high, pull := b.pads.pull && !(b.pads.clkO == .driven .high) } := by
  simp [Bus.stop]

/-! ### WRITEBYTE -/

@[simp] theorem Bus.sendBit_shift (b : Bus) : b.sendBit.shift = b.shift >>> 1 := rfl
@[simp] theorem Bus.sendBit_bitcnt (b : Bus) : b.sendBit.bitcnt = b.bitcnt + 1 := rfl
@[simp] theorem Bus.sendBit_ack (b : Bus) : b.sendBit.ack = b.ack := rfl
@[simp] theorem Bus.sendBit_answers (b : Bus) : b.sendBit.answers = b.answers := rfl
@[simp] theorem Bus.sendBit_sampleDraws (b : Bus) : b.sendBit.sampleDraws = b.sampleDraws := rfl

theorem Bus.sendBit_trace (b : Bus) : b.sendBit.trace = b.trace ++ bitEvents b.shift 0 := by
  simp [Bus.sendBit, bitEvents]

theorem Bus.sendBit_pads (b : Bus) :
    b.sendBit.pads = { b.pads with
      clkO := .driven .high
      dioO := .driven (.ofBit (b.shift.getLsbD 0))
      pull := b.pads.pull && !(b.pads.clkO == .driven .high) } := by
  simp [Bus.sendBit]

/-- Bit `i` of the byte shifted right by one is bit `i + 1` (R28, R43). -/
theorem bitEvents_shift (v : Byte) (i : Nat) : bitEvents (v >>> 1) i = bitEvents v (i + 1) := by
  simp [bitEvents, BitVec.getLsbD_ushiftRight, Nat.add_comm 1 i]

theorem Bus.sendBits_trace (n : Nat) (b : Bus) :
    (Bus.sendBits n b).trace = b.trace ++ (List.range n).flatMap (bitEvents b.shift) := by
  induction n generalizing b with
  | zero => simp [Bus.sendBits]
  | succ n ih =>
    have h : bitEvents (b.shift >>> 1) = fun i => bitEvents b.shift (i + 1) := funext (bitEvents_shift b.shift)
    rw [Bus.sendBits, ih, Bus.sendBit_trace, List.range_succ_eq_map, List.flatMap_cons, List.flatMap_map,
      Bus.sendBit_shift, h, List.append_assoc]

theorem Bus.sendBits_ack (n : Nat) (b : Bus) : (Bus.sendBits n b).ack = b.ack := by
  induction n generalizing b with
  | zero => rfl
  | succ n ih => rw [Bus.sendBits, ih, Bus.sendBit_ack]

theorem Bus.sendBits_answers (n : Nat) (b : Bus) : (Bus.sendBits n b).answers = b.answers := by
  induction n generalizing b with
  | zero => rfl
  | succ n ih => rw [Bus.sendBits, ih, Bus.sendBit_answers]

theorem Bus.sendBits_sampleDraws (n : Nat) (b : Bus) : (Bus.sendBits n b).sampleDraws = b.sampleDraws := by
  induction n generalizing b with
  | zero => rfl
  | succ n ih => rw [Bus.sendBits, ih, Bus.sendBit_sampleDraws]

/-- After eight data bits SHIFT is empty (R28). -/
theorem Bus.sendBits_eight_shift (b : Bus) : (Bus.sendBits 8 b).shift = 0 := by
  simp only [Bus.sendBits, Bus.sendBit_shift, ← BitVec.shiftRight_add]
  exact BitVec.ushiftRight_eq_zero (by decide)

/-- After eight data bits, none before, BITCNT is 8 (R29). -/
theorem Bus.sendBits_eight_bitcnt (b : Bus) (h : b.bitcnt = 0) : (Bus.sendBits 8 b).bitcnt = 8 := by
  simp only [Bus.sendBits, Bus.sendBit_bitcnt, h]
  rfl

/-- After data bits CLK is HIGH and the modes of the pins are as before (R76). -/
theorem Bus.sendBits_succ_pads (n : Nat) (b : Bus) :
    ∃ l pull, (Bus.sendBits (n + 1) b).pads = { b.pads with
      clkO := .driven .high, dioO := .driven l, pull := pull } := by
  induction n generalizing b with
  | zero => exact ⟨_, _, Bus.sendBit_pads b⟩
  | succ n ih =>
    obtain ⟨l, pull, hl⟩ := ih b.sendBit
    exact ⟨l, pull, by rw [Bus.sendBits, hl, Bus.sendBit_pads]⟩

/-- After the eight data bits DIO is driven at the level of bit 7 (R76). -/
theorem Bus.sendBits_eight_dioO (v : Byte) (b : Bus) :
    (Bus.sendBits 8 (b.loadShift v)).pads.dioO = .driven (.ofBit (v.getLsbD 7)) := by
  simp [Bus.sendBits, Bus.sendBit_pads, Bus.loadShift]

@[simp] theorem Bus.release_shift (b : Bus) : b.release.shift = b.shift := by simp [Bus.release]
@[simp] theorem Bus.release_bitcnt (b : Bus) : b.release.bitcnt = b.bitcnt := by simp [Bus.release]
@[simp] theorem Bus.release_ack (b : Bus) : b.release.ack = b.ack := by simp [Bus.release]
@[simp] theorem Bus.release_trace (b : Bus) : b.release.trace = b.trace ++ [.doe false] := by simp [Bus.release]
@[simp] theorem Bus.release_pads (b : Bus) :
    b.release.pads = { b.pads with dioOE := false, pull := b.nextAnswer = .low } := by simp [Bus.release]

theorem Bus.release_answersUsed (b : Bus) : AnswersUsed 1 b b.release := by
  obtain ⟨h₁, h₂⟩ := Bus.takeAnswer_congr (b := b.drive (.doe false)
    { b.pads.apply (.doe false) with pull := b.nextAnswer = .low }) (c := b) rfl rfl
  exact ⟨h₁, h₂⟩

/-- On the released line the environment's answer stands (R16, R36). -/
theorem Bus.release_released (b : Bus) : b.release.pads.released = b.nextAnswer := by
  cases h : b.nextAnswer <;> simp [Pads.released, h]

@[simp] theorem Bus.ackFall_shift (b : Bus) : b.ackFall.shift = b.shift := rfl
@[simp] theorem Bus.ackFall_bitcnt (b : Bus) : b.ackFall.bitcnt = b.bitcnt := rfl
@[simp] theorem Bus.ackFall_ack (b : Bus) : b.ackFall.ack = b.ack := rfl
@[simp] theorem Bus.ackFall_trace (b : Bus) : b.ackFall.trace = b.trace ++ [.clk .low] := rfl
@[simp] theorem Bus.ackFall_nextAnswer (b : Bus) : b.ackFall.nextAnswer = b.nextAnswer := rfl
@[simp] theorem Bus.ackFall_pads (b : Bus) :
    b.ackFall.pads = { b.pads with clkO := .driven .low, pull := b.pullsEarly } := by simp [Bus.ackFall]

theorem Bus.ackFall_answersUsed (b : Bus) : AnswersUsed 0 b b.ackFall := ⟨rfl, rfl⟩

/-- The acknowledge bit after the acknowledge phase is the answer (R30, R76). -/
theorem Bus.ackPhase_ack (us : Nat) (b : Bus) : (b.ackPhase us).ack = b.nextAnswer := by
  cases hn : b.nextAnswer <;>
    simp [Bus.ackPhase, Bus.reassert, Bus.sample, Pads.released, acknowledged, hn]

/-- The events of the acknowledge phase (R76). -/
theorem Bus.ackPhase_trace (us : Nat) (b : Bus) :
    (b.ackPhase us).trace = b.trace ++ ackEvents us b.nextAnswer := by
  cases hn : b.nextAnswer <;>
    simp [Bus.ackPhase, Bus.reassert, Bus.sample, Pads.released, acknowledged, ackEvents, reassertEvents, hn]

/-- The pads after the acknowledge phase: CLK HIGH, DIO driven LOW; the peripheral that acknowledged still
pulls (R76, R78, R120). -/
theorem Bus.ackPhase_pads (us : Nat) (b : Bus) :
    (b.ackPhase us).pads = { b.pads with
      clkO := .driven .high, dioOE := true, dioO := .driven .low, pull := b.nextAnswer = .low } := by
  cases hn : b.nextAnswer <;>
    simp [Bus.ackPhase, Bus.reassert, Bus.sample, Pads.released, acknowledged, hn]

theorem Bus.ackPhase_shift (us : Nat) (b : Bus) : (b.ackPhase us).shift = b.shift := by
  unfold Bus.ackPhase Bus.reassert
  split <;> simp [Bus.sample]

theorem Bus.ackPhase_bitcnt (us : Nat) (b : Bus) : (b.ackPhase us).bitcnt = b.bitcnt := by
  unfold Bus.ackPhase Bus.reassert
  split <;> simp [Bus.sample]

/-- The acknowledge phase uses one answer (R36). -/
theorem Bus.ackPhase_answersUsed (us : Nat) (b : Bus) : AnswersUsed 1 b (b.ackPhase us) := by
  have h₁ : (b.ackPhase us).answers = b.ackFall.release.answers := by
    unfold Bus.ackPhase Bus.reassert
    split <;> simp [Bus.sample]
  have h₂ : (b.ackPhase us).sampleDraws = b.ackFall.release.sampleDraws := by
    unfold Bus.ackPhase Bus.reassert
    split <;> simp [Bus.sample]
  have h₃ := (Bus.ackFall_answersUsed b).trans (Bus.release_answersUsed b.ackFall)
  exact ⟨h₁.trans h₃.1, h₂.trans h₃.2⟩

theorem Bus.loadSend_nextAnswer (v : Byte) (b : Bus) :
    (Bus.sendBits 8 (b.loadShift v)).nextAnswer = b.nextAnswer :=
  Bus.nextAnswer_congr (Bus.sendBits_answers 8 _) (Bus.sendBits_sampleDraws 8 _)

/-- WRITEBYTE: its 33 or 35 events (R76). -/
theorem Bus.writeByte_trace (us : Nat) (v : Byte) (b : Bus) :
    (b.writeByte us v).trace = b.trace ++ byteEvents us v b.nextAnswer := by
  rw [Bus.writeByte, Bus.ackPhase_trace, Bus.sendBits_trace, Bus.loadSend_nextAnswer]
  simp [byteEvents]

theorem Bus.writeByte_shift (us : Nat) (v : Byte) (b : Bus) : (b.writeByte us v).shift = 0 := by
  rw [Bus.writeByte, Bus.ackPhase_shift, Bus.sendBits_eight_shift]

theorem Bus.writeByte_bitcnt (us : Nat) (v : Byte) (b : Bus) : (b.writeByte us v).bitcnt = 8 := by
  rw [Bus.writeByte, Bus.ackPhase_bitcnt, Bus.sendBits_eight_bitcnt _ rfl]

theorem Bus.writeByte_ack (us : Nat) (v : Byte) (b : Bus) : (b.writeByte us v).ack = b.nextAnswer := by
  rw [Bus.writeByte, Bus.ackPhase_ack, Bus.loadSend_nextAnswer]

theorem Bus.writeByte_pads (us : Nat) (v : Byte) (b : Bus) :
    (b.writeByte us v).pads = { b.pads with
      clkO := .driven .high, dioOE := true, dioO := .driven .low, pull := b.nextAnswer = .low } := by
  obtain ⟨l, pull, hl⟩ := Bus.sendBits_succ_pads 7 (b.loadShift v)
  rw [Bus.writeByte, Bus.ackPhase_pads, hl, Bus.loadSend_nextAnswer]
  rfl

theorem Bus.writeByte_answersUsed (us : Nat) (v : Byte) (b : Bus) : AnswersUsed 1 b (b.writeByte us v) := by
  have h : AnswersUsed 0 b (Bus.sendBits 8 (b.loadShift v)) :=
    ⟨Bus.sendBits_answers 8 _, Bus.sendBits_sampleDraws 8 _⟩
  exact h.trans (Bus.ackPhase_answersUsed us _)

/-! ### Bytes and frames -/

theorem Bus.writeBytes_answersUsed (us : Nat) (vs : List Byte) (b : Bus) :
    AnswersUsed vs.length b (b.writeBytes us vs) := by
  induction vs generalizing b with
  | nil => exact .refl b
  | cons v vs ih =>
    rw [List.length_cons, Nat.add_comm]
    exact (Bus.writeByte_answersUsed us v b).trans (ih _)

theorem Bus.writeBytes_trace (us : Nat) (vs : List Byte) (b : Bus) :
    (b.writeBytes us vs).trace = b.trace ++ bytesEvents us vs (upcoming vs.length b) := by
  induction vs generalizing b with
  | nil => simp [Bus.writeBytes, bytesEvents]
  | cons v vs ih =>
    have h := Bus.writeByte_answersUsed us v b
    have hu : upcoming vs.length (b.writeByte us v) = upcoming vs.length b.takeAnswer :=
      upcoming_congr _ h.1 h.2
    rw [Bus.writeBytes, ih, Bus.writeByte_trace, hu, List.append_assoc]
    simp [bytesEvents, upcoming]

theorem Bus.writeBytes_pads (us : Nat) (vs : List Byte) (b : Bus) (h : vs ≠ []) :
    ∃ pull, (b.writeBytes us vs).pads = { b.pads with
      clkO := .driven .high, dioOE := true, dioO := .driven .low, pull := pull } := by
  induction vs generalizing b with
  | nil => exact absurd rfl h
  | cons v vs ih =>
    rw [Bus.writeBytes]
    by_cases hv : vs = []
    · subst hv
      exact ⟨_, Bus.writeByte_pads us v b⟩
    · obtain ⟨pull, hp⟩ := ih (b.writeByte us v) hv
      refine ⟨pull, ?_⟩
      rw [hp, Bus.writeByte_pads]

theorem Bus.writeBytes_registers (us : Nat) (vs : List Byte) (b : Bus) (h : vs ≠ []) :
    (b.writeBytes us vs).shift = 0 ∧ (b.writeBytes us vs).bitcnt = 8 := by
  induction vs generalizing b with
  | nil => exact absurd rfl h
  | cons v vs ih =>
    rw [Bus.writeBytes]
    by_cases hv : vs = []
    · subst hv
      exact ⟨Bus.writeByte_shift us v b, Bus.writeByte_bitcnt us v b⟩
    · exact ih _ hv

/-- ACK after bytes is the last byte's answer (R30). -/
theorem Bus.writeBytes_ack (us : Nat) (vs : List Byte) (b : Bus) (h : vs ≠ []) :
    (upcoming vs.length b).getLast? = some (b.writeBytes us vs).ack := by
  induction vs generalizing b with
  | nil => exact absurd rfl h
  | cons v vs ih =>
    rw [Bus.writeBytes]
    by_cases hv : vs = []
    · subst hv
      simp [upcoming, Bus.writeBytes, Bus.writeByte_ack]
    · have hu := Bus.writeByte_answersUsed us v b
      have := ih (b.writeByte us v) hv
      rw [upcoming_congr _ hu.1 hu.2] at this
      obtain ⟨w, ws, rfl⟩ := List.exists_cons_of_ne_nil hv
      simp only [List.length_cons, upcoming, afterAnswers] at this ⊢
      rw [List.getLast?_cons_cons]
      exact this

theorem Bus.sendFrame_answersUsed (us : Nat) (vs : List Byte) (b : Bus) :
    AnswersUsed vs.length b (b.sendFrame us vs) := by
  have h : AnswersUsed (0 + (vs.length + 0)) b (b.sendFrame us vs) := (Bus.start_answersUsed b).trans
    ((Bus.writeBytes_answersUsed us vs b.start).trans (Bus.stop_answersUsed _))
  simpa using h

/-- A frame's events (R48). -/
theorem Bus.sendFrame_trace (us : Nat) (vs : List Byte) (b : Bus) :
    (b.sendFrame us vs).trace = b.trace ++ frameEvents us vs (upcoming vs.length b) := by
  have hu : upcoming vs.length b.start = upcoming vs.length b := upcoming_congr _ rfl rfl
  rw [Bus.sendFrame, Bus.stop_trace, Bus.writeBytes_trace, Bus.start_trace, hu]
  simp [frameEvents]

/-- A frame of at least one byte ends on the idle bus (R39). -/
theorem Bus.sendFrame_pads (us : Nat) (vs : List Byte) (b : Bus) (h : vs ≠ []) :
    (b.sendFrame us vs).pads = { idlePads with clkOE := b.pads.clkOE } := by
  obtain ⟨pull, hp⟩ := Bus.writeBytes_pads us vs b.start h
  rw [Bus.sendFrame, Bus.stop_pads, hp, Bus.start_pads]
  simp [idlePads]

theorem Bus.sendFrame_registers (us : Nat) (vs : List Byte) (b : Bus) (h : vs ≠ []) :
    (b.sendFrame us vs).shift = 0 ∧ (b.sendFrame us vs).bitcnt = 8 :=
  Bus.writeBytes_registers us vs b.start h

theorem Bus.sendFrames_answersUsed (us : Nat) (fs : List (List Byte)) (b : Bus) :
    AnswersUsed (fs.map List.length).sum b (b.sendFrames us fs) := by
  induction fs generalizing b with
  | nil => exact .refl b
  | cons f fs ih => exact (Bus.sendFrame_answersUsed us f b).trans (ih _)

/-- The events of frames in order (R88). -/
theorem Bus.sendFrames_trace (us : Nat) (fs : List (List Byte)) (b : Bus) :
    (b.sendFrames us fs).trace = b.trace ++ framesEvents us fs (upcoming (fs.map List.length).sum b) := by
  induction fs generalizing b with
  | nil => simp [Bus.sendFrames, framesEvents]
  | cons f fs ih =>
    have h := Bus.sendFrame_answersUsed us f b
    rw [Bus.sendFrames, ih, Bus.sendFrame_trace, List.append_assoc, framesEvents, List.map_cons, List.sum_cons,
      upcoming_add, upcoming_congr _ h.1 h.2]
    simp [upcoming_length]

/-- Frames of at least one byte each, at least one of them, end on the idle bus (R39). -/
theorem Bus.sendFrames_pads (us : Nat) (fs : List (List Byte)) (b : Bus) (hf : fs ≠ []) (h : ∀ f ∈ fs, f ≠ []) :
    (b.sendFrames us fs).pads = { idlePads with clkOE := b.pads.clkOE } := by
  induction fs generalizing b with
  | nil => exact absurd rfl hf
  | cons f fs ih =>
    have hp := Bus.sendFrame_pads us f b (h f (by simp))
    rw [Bus.sendFrames]
    by_cases hfs : fs = []
    · subst hfs
      exact hp
    · rw [ih (b.sendFrame us f) hfs fun g hg => h g (by simp [hg]), hp]

theorem Bus.sendFrames_registers (us : Nat) (fs : List (List Byte)) (b : Bus) (hf : fs ≠ [])
    (h : ∀ f ∈ fs, f ≠ []) : (b.sendFrames us fs).shift = 0 ∧ (b.sendFrames us fs).bitcnt = 8 := by
  induction fs generalizing b with
  | nil => exact absurd rfl hf
  | cons f fs ih =>
    rw [Bus.sendFrames]
    by_cases hfs : fs = []
    · subst hfs
      exact Bus.sendFrame_registers us f b (h f (by simp))
    · exact ih _ hfs fun g hg => h g (by simp [hg])

end Sys2Proof.Machine
end

