-- ==== Sys2Proof/Laws/Receiver.lean ====
section
/-!
SUPPORT. What the reference receiver makes of the transport's events (R121): start conditions, data bits,
bytes and frames.
-/

namespace Sys2Proof.Machine

open Sys2Proof.Safety

/-! ### The receiver's control state, apart from the frame it collects -/

/-- The receiver with another view of the lines and of the frame it collects. -/
def Receiver.withLine (rx : Receiver) (inFrame : Bool) (bits : List Level) (bytes : List Byte) (clk dio : Level) :
    Receiver :=
  { rx with inFrame := inFrame, bits := bits, bytes := bytes, seenClk := clk, seenDio := dio }

/-- The receiver collecting a frame: bits of the current byte, complete bytes, and the levels last seen. -/
def Receiver.collecting (rx : Receiver) (bits : List Level) (bytes : List Byte) (clk dio : Level) : Receiver :=
  rx.withLine true bits bytes clk dio

/-- The receiver between frames on the idle bus. -/
def Receiver.resting (rx : Receiver) : Receiver := rx.withLine false [] [] .high .high

/-! ### Lines of the pads, with both pins outputs -/

/-- The pads with both pins outputs, at given levels. -/
def drivenPads (clk dio : Level) (pull : Bool) : Pads :=
  { clkOE := true, clkO := .driven clk, dioOE := true, dioO := .driven dio, pull := pull }

/-- The pads while DIO is released. -/
def releasedPads (clk : Level) (dioO : Level) (pull : Bool) : Pads :=
  { clkOE := true, clkO := .driven clk, dioOE := false, dioO := .driven dioO, pull := pull }

@[simp] theorem listen_driven_unpulled (n : Nat) (rx : Receiver) (c d : Level) :
    rx.listen n (drivenPads c d false) = rx.hear c d := by
  simp [Receiver.listen, drivenPads, Pads.contends, Pads.clkHeard, Pads.dioHeard, Pads.clkLine,
    Pads.dioLine, PadLevel.taken]

@[simp] theorem listen_driven_low (n : Nat) (rx : Receiver) (c : Level) (pull : Bool) :
    rx.listen n (drivenPads c .low pull) = rx.hear c .low := by
  cases pull <;> simp [Receiver.listen, drivenPads, Pads.contends, Pads.clkHeard, Pads.dioHeard, Pads.clkLine,
    Pads.dioLine, PadLevel.taken]

@[simp] theorem listen_released (n : Nat) (rx : Receiver) (c d : Level) (pull : Bool) :
    rx.listen n (releasedPads c d pull) = rx.hear c (if pull then .low else .high) := by
  cases pull <;>
    simp [Receiver.listen, releasedPads, Pads.contends, Pads.clkHeard, Pads.dioHeard, Pads.clkLine,
      Pads.dioLine, Pads.released, PadLevel.taken]

/-! ### Hearing one change -/

/-- While CLK is or goes LOW, the receiver hears no condition and no bit, whatever DIO does (R121, R134). -/
theorem hear_low (rx : Receiver) (d : Level) :
    rx.hear .low d = { rx with seenClk := .low, seenDio := d } := by
  obtain ⟨mode, ram, bright, on, inFrame, bits, bytes, seenClk, seenDio, draws⟩ := rx
  cases seenClk <;> rfl

/-- Levels that stay as they are change nothing. -/
theorem hear_seen (rx : Receiver) : rx.hear rx.seenClk rx.seenDio = rx := by
  obtain ⟨mode, ram, bright, on, inFrame, bits, bytes, seenClk, seenDio, draws⟩ := rx
  cases seenClk <;> cases seenDio <;> rfl

theorem hear_fall (rx : Receiver) (bs : List Level) (vs : List Byte) (c d d' : Level) :
    (rx.collecting bs vs c d).hear .low d' = rx.collecting bs vs .low d' := hear_low _ _

theorem hear_same (rx : Receiver) (bs : List Level) (vs : List Byte) (c d : Level) :
    (rx.collecting bs vs c d).hear c d = rx.collecting bs vs c d := by
  cases c <;> cases d <;> rfl

theorem hear_rise (rx : Receiver) (bs : List Level) (vs : List Byte) (d d' : Level) :
    (rx.collecting bs vs .low d).hear .high d' =
      { (rx.collecting bs vs .low d).risingEdge d' with seenClk := .high, seenDio := d' } := rfl

theorem rise_bit (rx : Receiver) (bs : List Level) (vs : List Byte) (d d' : Level) (h : bs.length < 7) :
    (rx.collecting bs vs .low d).hear .high d' = rx.collecting (bs ++ [d']) vs .high d' := by
  rw [hear_rise]
  simp [Receiver.risingEdge, Receiver.collecting, Receiver.withLine, h]

theorem rise_eighth (rx : Receiver) (bs : List Level) (vs : List Byte) (d d' : Level) (h : bs.length = 7) :
    (rx.collecting bs vs .low d).hear .high d' =
      rx.collecting (bs ++ [d']) (vs ++ [byteOfLevels (bs ++ [d'])]) .high d' := by
  rw [hear_rise]
  simp [Receiver.risingEdge, Receiver.collecting, Receiver.withLine, h]

theorem rise_ack (rx : Receiver) (bs : List Level) (vs : List Byte) (d d' : Level) (h : bs.length = 8) :
    (rx.collecting bs vs .low d).hear .high d' = rx.collecting [] vs .high d' := by
  rw [hear_rise]
  simp [Receiver.risingEdge, Receiver.collecting, Receiver.withLine, h]

/-! ### Data bits -/

/-- A bus with both pins outputs whose receiver has heard the lines and collects a frame. -/
structure Collecting (b : Bus) (rx : Receiver) (clk dio : Level) (bits : List Level) (bytes : List Byte) :
    Prop where
  pads : ∃ pull, b.pads = drivenPads clk dio pull ∧ (pull = true → clk = .high ∧ dio = .low)
  rx : b.rx = rx.collecting bits bytes clk dio

/-- The level of the bit that is sent next. -/
def Bus.bitLevel (b : Bus) : Level := .ofBit (b.shift.getLsbD 0)

/-- A falling CLK edge leaves nothing pulled (R120). -/
theorem Collecting.fall_pads {b : Bus} {rx : Receiver} {c d : Level} {bits : List Level} {bytes : List Byte}
    (h : Collecting b rx c d bits bytes) : b.pads.apply (.clk .low) = drivenPads .low d false := by
  obtain ⟨⟨pull, hp, hpull⟩, _⟩ := h
  rw [hp]
  cases pull <;> simp_all [drivenPads]

/-- After a data bit CLK is HIGH, DIO at the bit's level, and the receiver has heard the rise (R76). -/
theorem Collecting.sendBit_heard {b : Bus} {rx : Receiver} {c d : Level} {bits : List Level} {bytes : List Byte}
    (h : Collecting b rx c d bits bytes) :
    b.sendBit.pads = drivenPads .high b.bitLevel false ∧
      b.sendBit.rx = (rx.collecting bits bytes .low b.bitLevel).hear .high b.bitLevel := by
  have e₁ := h.fall_pads
  have e₂ (l : Level) : (drivenPads .low d false).apply (.dout l) = drivenPads .low l false := rfl
  have e₃ (l : Level) : (drivenPads .low l false).apply (.clk .high) = drivenPads .high l false := rfl
  constructor
  · simp only [Bus.sendBit, Bus.shiftOut_pads, Bus.emit_pads, e₁, e₂, e₃, Bus.bitLevel]
  · simp only [Bus.sendBit, Bus.shiftOut_rx, Bus.emit_rx, Bus.emit_pads, e₁, e₂, e₃, listen_driven_unpulled, h.rx,
      hear_fall, Bus.bitLevel]

theorem Collecting.sendBit {b : Bus} {rx : Receiver} {c d : Level} {bits : List Level} {bytes : List Byte}
    (h : Collecting b rx c d bits bytes) (hl : bits.length < 7) :
    Collecting b.sendBit rx .high b.bitLevel (bits ++ [b.bitLevel]) bytes := by
  obtain ⟨hp, hr⟩ := h.sendBit_heard
  exact ⟨⟨false, hp, by simp⟩, hr.trans (rise_bit _ _ _ _ _ hl)⟩

theorem Collecting.sendEighth {b : Bus} {rx : Receiver} {c d : Level} {bits : List Level} {bytes : List Byte}
    (h : Collecting b rx c d bits bytes) (hl : bits.length = 7) :
    Collecting b.sendBit rx .high b.bitLevel (bits ++ [b.bitLevel])
      (bytes ++ [byteOfLevels (bits ++ [b.bitLevel])]) := by
  obtain ⟨hp, hr⟩ := h.sendBit_heard
  exact ⟨⟨false, hp, by simp⟩, hr.trans (rise_eighth _ _ _ _ _ hl)⟩

/-- The levels of a byte's bits, bit 0 first (R43). -/
def levelsOf (v : Byte) : List Level := (List.range 8).map fun i => .ofBit (v.getLsbD i)

/-- The receiver's byte is the byte that was sent (R43). -/
theorem byteOfLevels_levelsOf (v : Byte) : byteOfLevels (levelsOf v) = v := by
  revert v
  decide +kernel

/-- Eight data bits are heard as the byte (R43, R70, R121). -/
theorem Collecting.sendEight {b : Bus} {rx : Receiver} {c d : Level} {bytes : List Byte} (v : Byte)
    (h : Collecting b rx c d [] bytes) (hs : b.shift = v) :
    Collecting (Bus.sendBits 8 b) rx .high (.ofBit (v.getLsbD 7)) (levelsOf v) (bytes ++ [v]) := by
  subst hs
  have h₁ := h.sendBit (by simp)
  have h₂ := h₁.sendBit (by simp)
  have h₃ := h₂.sendBit (by simp)
  have h₄ := h₃.sendBit (by simp)
  have h₅ := h₄.sendBit (by simp)
  have h₆ := h₅.sendBit (by simp)
  have h₇ := h₆.sendBit (by simp)
  have h₈ := h₇.sendEighth (by simp)
  have hl : levelsOf b.shift = ([] ++ [b.bitLevel] ++ [b.sendBit.bitLevel] ++ [b.sendBit.sendBit.bitLevel]
      ++ [b.sendBit.sendBit.sendBit.bitLevel] ++ [b.sendBit.sendBit.sendBit.sendBit.bitLevel]
      ++ [b.sendBit.sendBit.sendBit.sendBit.sendBit.bitLevel]
      ++ [b.sendBit.sendBit.sendBit.sendBit.sendBit.sendBit.bitLevel])
      ++ [b.sendBit.sendBit.sendBit.sendBit.sendBit.sendBit.sendBit.bitLevel] := by
    simp [levelsOf, List.range, List.range.loop, Bus.bitLevel]
  rw [← hl, byteOfLevels_levelsOf] at h₈
  have h7 : b.sendBit.sendBit.sendBit.sendBit.sendBit.sendBit.sendBit.bitLevel = .ofBit (b.shift.getLsbD 7) := by
    simp [Bus.bitLevel]
  rw [h7] at h₈
  exact h₈

theorem levelsOf_length (v : Byte) : (levelsOf v).length = 8 := by simp [levelsOf]

/-! ### The acknowledge phase -/

/-- While CLK falls, whatever the level on DIO, contended or not, nothing is heard (R134). -/
theorem Collecting.ackFall_heard {b : Bus} {rx : Receiver} {c d : Level} {bits : List Level} {bytes : List Byte}
    (h : Collecting b rx c d bits bytes) :
    b.ackFall.pads = drivenPads .low d b.pullsEarly ∧ ∃ d', b.ackFall.rx = rx.collecting bits bytes .low d' := by
  have hp : b.ackFall.pads = drivenPads .low d b.pullsEarly := by
    obtain ⟨⟨_, hp, _⟩, _⟩ := h
    simp [hp, drivenPads]
  refine ⟨hp, ?_⟩
  rw [show b.ackFall.rx = b.rx.listen b.trace.length b.ackFall.pads from rfl, hp, h.rx]
  exact ⟨_, hear_fall _ _ _ _ _ _⟩

/-- After the release CLK is LOW and the environment's answer stands on DIO (R36, R76). -/
theorem Collecting.release_heard {b : Bus} {rx : Receiver} {c d : Level} {bits : List Level} {bytes : List Byte}
    (h : Collecting b rx c d bits bytes) :
    b.ackFall.release.pads = releasedPads .low d (b.nextAnswer = .low) ∧
      b.ackFall.release.rx = rx.collecting bits bytes .low b.nextAnswer := by
  obtain ⟨hp, d', hr⟩ := h.ackFall_heard
  have hp' : b.ackFall.release.pads = releasedPads .low d (b.nextAnswer = .low) := by
    rw [Bus.release_pads, hp, Bus.ackFall_nextAnswer]
    rfl
  refine ⟨hp', ?_⟩
  have hl : b.ackFall.release.rx = b.ackFall.rx.listen b.ackFall.trace.length b.ackFall.release.pads := by
    simp [Bus.release]
  rw [hl, hp', listen_released, hr, hear_fall]
  cases b.nextAnswer <;> rfl

/-- An acknowledged byte: the ninth edge is its acknowledge slot, and collection goes on (R121). -/
theorem Collecting.ackPhase_low {b : Bus} {rx : Receiver} {c d : Level} {bits : List Level} {bytes : List Byte}
    (us : Nat) (h : Collecting b rx c d bits bytes) (hl : bits.length = 8) (ha : b.nextAnswer = .low) :
    Collecting (b.ackPhase us) rx .high .low [] bytes := by
  obtain ⟨hpads, hrx⟩ := h.release_heard
  rw [ha] at hpads hrx
  constructor
  · exact ⟨true, by rw [Bus.ackPhase_pads, ha]; obtain ⟨⟨_, hp, _⟩, _⟩ := h; simp [hp, drivenPads], by simp⟩
  · have e₃ : ({ releasedPads .low d true with clkO := .driven .high } : Pads) = releasedPads .high d true := rfl
    have e₄ : ({ releasedPads .high d true with dioO := .driven .low } : Pads) = releasedPads .high .low true := rfl
    have e₅ : ({ releasedPads .high .low true with dioOE := true } : Pads) = drivenPads .high .low true := rfl
    have e₆ : ({ drivenPads .high .low true with dioO := .driven .low } : Pads) = drivenPads .high .low true := rfl
    have e₇ : ({ drivenPads .high .low true with dioOE := true } : Pads) = drivenPads .high .low true := rfl
    have hrel : (releasedPads .high d true).released = .low := rfl
    simp only [Bus.ackPhase, Bus.reassert, Bus.sample, acknowledged, Bus.emit_pads, Bus.emit_rx, hpads, hrx,
      Pads.apply_clk_high, Pads.apply_waitUs, Pads.apply_sample, Pads.apply_dout, Pads.apply_doe, e₃, hrel, decide_true,
      if_true, e₄, e₅, e₆, e₇, listen_released, listen_driven_low, rise_ack _ _ _ _ _ hl, hear_same]

/-- A byte that is not acknowledged: DIO falls at event A9 while CLK is HIGH, a start condition, and byte
collection begins anew (R121, R133). -/
theorem Collecting.ackPhase_high {b : Bus} {rx : Receiver} {c d : Level} {bits : List Level} {bytes : List Byte}
    (us : Nat) (h : Collecting b rx c d bits bytes) (hl : bits.length = 8) (ha : b.nextAnswer = .high) :
    Collecting (b.ackPhase us) rx .high .low [] [] := by
  obtain ⟨hpads, hrx⟩ := h.release_heard
  rw [ha] at hpads hrx
  constructor
  · exact ⟨false, by rw [Bus.ackPhase_pads, ha]; obtain ⟨⟨_, hp, _⟩, _⟩ := h; simp [hp, drivenPads], by simp⟩
  · have e₃ : ({ releasedPads .low d false with clkO := .driven .high } : Pads) = releasedPads .high d false := rfl
    have e₄ : ({ releasedPads .high d false with dioO := .driven .low } : Pads) = releasedPads .high .low false := rfl
    have e₅ : ({ releasedPads .high .low false with dioOE := true } : Pads) = drivenPads .high .low false := rfl
    have hrel : (releasedPads .high d false).released = .high := rfl
    have hstart : (rx.collecting [] bytes .high .high).hear .high .low = rx.collecting [] [] .high .low := rfl
    simp only [Bus.ackPhase, Bus.reassert, Bus.sample, acknowledged, Bus.emit_pads, Bus.emit_rx, hpads, hrx,
      Pads.apply_clk_high, Pads.apply_waitUs, Pads.apply_sample, Pads.apply_dout, Pads.apply_doe, e₃, hrel, reduceCtorEq,
      decide_false, Bool.false_eq_true, if_false, e₄, e₅, listen_released, listen_driven_low,
      rise_ack _ _ _ _ _ hl, hear_same, hstart]

/-! ### Bytes -/

/-- An acknowledged WRITEBYTE is heard as its byte (R76, R121). -/
theorem Collecting.writeByte_low {b : Bus} {rx : Receiver} {c d : Level} {bytes : List Byte} (us : Nat) (v : Byte)
    (h : Collecting b rx c d [] bytes) (ha : b.nextAnswer = .low) :
    Collecting (b.writeByte us v) rx .high .low [] (bytes ++ [v]) := by
  have h₁ : Collecting (b.loadShift v) rx c d [] bytes := ⟨h.pads, h.rx⟩
  exact (h₁.sendEight v rfl).ackPhase_low us (levelsOf_length v) ((Bus.loadSend_nextAnswer v b).trans ha)

/-- A WRITEBYTE that is not acknowledged restarts byte collection (R133). -/
theorem Collecting.writeByte_high {b : Bus} {rx : Receiver} {c d : Level} {bytes : List Byte} (us : Nat) (v : Byte)
    (h : Collecting b rx c d [] bytes) (ha : b.nextAnswer = .high) :
    Collecting (b.writeByte us v) rx .high .low [] [] := by
  have h₁ : Collecting (b.loadShift v) rx c d [] bytes := ⟨h.pads, h.rx⟩
  exact (h₁.sendEight v rfl).ackPhase_high us (levelsOf_length v) ((Bus.loadSend_nextAnswer v b).trans ha)

/-- Bytes that are all acknowledged are heard in order (R44, R121). -/
theorem Collecting.writeBytes {b : Bus} {rx : Receiver} {c d : Level} {bytes : List Byte} (us : Nat)
    (vs : List Byte) (h : Collecting b rx c d [] bytes) (ha : ∀ a ∈ upcoming vs.length b, a = .low) :
    ∃ c' d', Collecting (b.writeBytes us vs) rx c' d' [] (bytes ++ vs) ∧ (d = .low → d' = .low) := by
  induction vs generalizing b bytes c d with
  | nil => exact ⟨c, d, by simpa [Bus.writeBytes] using h, id⟩
  | cons v vs ih =>
    have hv : b.nextAnswer = .low := ha _ (by simp [upcoming])
    have hu := Bus.writeByte_answersUsed us v b
    have hr : ∀ a ∈ upcoming vs.length (b.writeByte us v), a = .low := by
      rw [upcoming_congr _ hu.1 hu.2]
      exact fun a h => ha a (by simp [upcoming, afterAnswers] at h ⊢; exact .inr h)
    obtain ⟨c', d', h', hd⟩ := ih (h.writeByte_low us v hv) hr
    exact ⟨c', d', by simpa [Bus.writeBytes] using h', fun _ => hd rfl⟩

/-! ### Frames -/

theorem store_withLine (addr : Nat) (ss : List Byte) (rx : Receiver) (f : Bool) (bs : List Level) (vs : List Byte)
    (c d : Level) :
    Receiver.store addr ss (rx.withLine f bs vs c d) = (Receiver.store addr ss rx).withLine f bs vs c d := by
  induction ss generalizing addr rx with
  | nil => rfl
  | cons s ss ih =>
    unfold Receiver.store
    by_cases h : addr > 3
    · simp only [h, if_true]; rfl
    · simp only [h, if_false]
      exact ih (if rx.mode = .auto then addr + 1 else addr) { rx with ram := rx.ram.setIfInBounds addr s }

/-- Processing a frame does not touch what is heard of the lines. -/
theorem process_withLine (ws : List Byte) (rx : Receiver) (f : Bool) (bs : List Level) (vs : List Byte)
    (c d : Level) : (rx.withLine f bs vs c d).process ws = (rx.process ws).withLine f bs vs c d := by
  unfold Receiver.process
  split <;> first | rfl | exact store_withLine _ _ _ _ _ _ _ _

theorem stop_heard {b : Bus} {rx : Receiver} {c : Level} {bytes : List Byte}
    (h : Collecting b rx c .low [] bytes) : b.stop.rx = (rx.process bytes).resting := by
  have e₁ := h.fall_pads
  have e₂ : (drivenPads .low .low false).apply (.dout .low) = drivenPads .low .low false := rfl
  have e₃ : (drivenPads .low .low false).apply (.clk .high) = drivenPads .high .low false := rfl
  have e₄ : (drivenPads .high .low false).apply (.dout .high) = drivenPads .high .high false := rfl
  have hs : (rx.collecting [.low] bytes .high .low).hear .high .high =
      { (rx.collecting [.low] bytes .high .low).stopCondition with seenClk := .high, seenDio := .high } := rfl
  have hb : (rx.collecting [.low] bytes .high .low).stopCondition =
      { (rx.collecting [.low] bytes .high .low).process bytes with inFrame := false, bits := [], bytes := [] } := rfl
  simp only [Bus.stop, Bus.emit_rx, Bus.emit_pads, e₁, e₂, e₃, e₄, h.rx, listen_driven_unpulled, hear_fall]
  rw [rise_bit _ _ _ _ _ (by simp), List.nil_append, hs, hb, Receiver.collecting, process_withLine]
  rfl

/-- CLK rises, and DIO rises and falls: a new frame is open, whatever was heard before (R72, R73, R135). -/
theorem hear_start (rx : Receiver) (d : Level) (hd : rx.seenDio = d)
    (h : (rx.seenClk = .high ∧ d = .high) ∨ rx.inFrame = false) :
    (((rx.hear .high d).hear .high .high).hear .high .low).hear .low .low = rx.collecting [] [] .low .low := by
  obtain ⟨mode, ram, bright, on, inFrame, bits, bytes, seenClk, seenDio, draws⟩ := rx
  subst hd
  rcases h with ⟨rfl, rfl⟩ | rfl
  · rfl
  · cases seenClk <;> cases seenDio <;> rfl

/-- From a settled bus START is heard as the start of a new frame (R72, R73, R135). -/
theorem start_heard {b : Bus} (h : Settled b) : Collecting b.start b.rx .low .low [] [] := by
  obtain ⟨hp, hc, hd⟩ := h
  have e₁ : b.pads.apply (.clk .high) = { b.pads with clkO := .driven .high } := Pads.apply_clk_high _
  have hq : (b.pads.apply (.clk .high)).apply (.dout .high) = drivenPads .high .high false := by
    rcases hp with hp | ⟨hp, _⟩ <;> rw [hp] <;> rfl
  constructor
  · exact ⟨false, by rw [Bus.start_pads]; rcases hp with hp | ⟨hp, _⟩ <;> rw [hp] <;> rfl, by simp⟩
  · have e₂ : (drivenPads .high .high false).apply (.dout .low) = drivenPads .high .low false := rfl
    have e₃ : (drivenPads .high .low false).apply (.clk .low) = drivenPads .low .low false := rfl
    simp only [Bus.start, Bus.emit_rx, Bus.emit_pads, hq, e₂, e₃, listen_driven_unpulled]
    rcases hp with hp | ⟨hp, hf⟩
    · have h₁ : b.rx.listen b.trace.length (b.pads.apply (.clk .high)) = b.rx.hear .high .high := by rw [hp]; rfl
      rw [hp] at hc hd
      rw [h₁]
      exact hear_start _ _ hd (.inl ⟨hc, rfl⟩)
    · have h₁ : b.rx.listen b.trace.length (b.pads.apply (.clk .high)) = b.rx.hear .high Config.openDio := by rw [hp]; rfl
      rw [hp] at hd
      rw [h₁]
      exact hear_start _ _ hd (.inr hf)

/-- An acknowledged frame from a settled bus is processed by the receiver, byte for byte (R121). -/
theorem sendFrame_heard (us : Nat) (vs : List Byte) {b : Bus} (h : Settled b) (hv : vs ≠ [])
    (ha : ∀ a ∈ upcoming vs.length b, a = .low) :
    (b.sendFrame us vs).rx = (b.rx.process vs).resting ∧ Settled (b.sendFrame us vs) := by
  have hs := start_heard h
  have ha' : ∀ a ∈ upcoming vs.length b.start, a = .low := by
    rwa [upcoming_congr (b := b.start) (c := b) _ rfl rfl]
  obtain ⟨c', d', hb, hd⟩ := hs.writeBytes us vs ha'
  rw [hd rfl, List.nil_append] at hb
  have hrx : (b.sendFrame us vs).rx = (b.rx.process vs).resting := stop_heard hb
  have hp := Bus.sendFrame_pads us vs b hv
  have hce : b.pads.clkOE = true := by rcases h.1 with hp | ⟨hp, _⟩ <;> rw [hp] <;> rfl
  rw [hce] at hp
  refine ⟨hrx, .inl hp, ?_, ?_⟩ <;> rw [hrx, hp] <;> rfl

theorem foldl_process_resting (fs : List (List Byte)) (rx : Receiver) :
    fs.foldl (fun rx f => rx.process f) rx.resting = (fs.foldl (fun rx f => rx.process f) rx).resting := by
  induction fs generalizing rx with
  | nil => rfl
  | cons f fs ih =>
    rw [List.foldl_cons, List.foldl_cons, Receiver.resting, process_withLine]
    exact ih _

/-- Acknowledged frames from a settled bus are processed by the receiver, in order (R121). -/
theorem sendFrames_heard (us : Nat) (fs : List (List Byte)) {b : Bus} (h : Settled b) (hf : ∀ f ∈ fs, f ≠ [])
    (ha : ∀ a ∈ upcoming (fs.map List.length).sum b, a = .low) (hn : fs ≠ []) :
    (b.sendFrames us fs).rx = (fs.foldl (fun rx f => rx.process f) b.rx).resting ∧ Settled (b.sendFrames us fs) := by
  induction fs generalizing b with
  | nil => exact absurd rfl hn
  | cons f fs ih =>
    rw [List.map_cons, List.sum_cons, upcoming_add] at ha
    obtain ⟨hr, hs⟩ := sendFrame_heard us f h (hf f (by simp)) fun a m => ha a (by simp [m])
    rw [Bus.sendFrames]
    by_cases hfs : fs = []
    · subst hfs
      exact ⟨hr, hs⟩
    · have hu := Bus.sendFrame_answersUsed us f b
      have ha₂ : ∀ a ∈ upcoming (fs.map List.length).sum (b.sendFrame us f), a = .low := by
        rw [upcoming_congr _ hu.1 hu.2]
        exact fun a m => ha a (by simp [m])
      obtain ⟨hr', hs'⟩ := ih hs (fun g hg => hf g (by simp [hg])) ha₂ hfs
      exact ⟨by rw [hr', hr, foldl_process_resting]; rfl, hs'⟩

end Sys2Proof.Machine
end

