-- ==== Sys2Proof/Laws/Exec.lean ====
section
/-!
SUPPORT. What the shared operations of the machine do: the admission of a host operation, frames on the bus in
closed form, and the writes of the display operations.
-/

namespace Sys2Proof.Machine

open Sys2Proof.Safety

/-! ### Admission (R110, R112) -/

section Admit

variable {i : Instr} {check : Option Reason} {body : State → State} {result : State → Ret} {s : State}

/-- A refusal records the code of its reason and the operation as presented (R109). -/
theorem refuse_records (r : Reason) (p : Presented) : RecordsRefusal s r.code p (.next (s.refuse r p)) :=
  ⟨⟨r, p⟩, rfl, rfl⟩

theorem accept_unconstructed (hi : s.seq = .idle) (hc : s.constructed = false) :
    s.accept i check body result = refusedWith s .unconstructed (encode i) := by
  simp [State.accept, State.ifIdle, hi, hc, State.refuse, refusedWith]

theorem accept_check {r : Reason} (h : Ready s) :
    s.accept i (some r) body result = refusedWith s r (encode i) := by
  simp [State.accept, State.ifIdle, h.1, h.2, State.refuse, refusedWith]

theorem accept_runs (h : Ready s) :
    s.accept i none body result = .next ((body (s.begin i)).finish (result (body (s.begin i)))) := by
  simp [State.accept, State.ifIdle, h.1, h.2]

theorem accept_busy {op : Instr} (h : s.seq = .busy op) : s.accept i check body result = .fault .overlap := by
  simp [State.accept, State.ifIdle, h]

/-- Everything an admission that answers a next state can have done: refused with a mark, or run to completion. -/
theorem accept_cases {t : State} (h : s.accept i check body result = .next t) :
    s.seq = .idle ∧ ((∃ r, t = s.refuse r (encode i)) ∨
      (s.constructed = true ∧ check = none ∧ t = (body (s.begin i)).finish (result (body (s.begin i))))) := by
  unfold State.accept State.ifIdle at h
  split at h
  next hs =>
    refine ⟨hs, ?_⟩
    split at h
    next hc =>
      split at h
      · exact .inl ⟨_, (Host.Outcome.next.inj h).symm⟩
      · exact .inr ⟨hc, rfl, (Host.Outcome.next.inj h).symm⟩
    next => exact .inl ⟨_, (Host.Outcome.next.inj h).symm⟩
  next => cases h

end Admit

/-- On a ready block an admitted operation whose work does not look at the sequencer ends in the state of its work,
with its returned value; the sequencer returns to the IDLE it came from (R18, R33). -/
theorem accept_next {i : Instr} {body : State → State} {result : State → Ret} {s : State} (h : Ready s)
    (hf : body (s.begin i) = (body s).begin i) (hg : (body s).seq = s.seq)
    (hr : result ((body s).begin i) = result (body s)) :
    s.accept i none body result = .next { body s with ret := result (body s) } := by
  have h₂ : (body s).seq = .idle := hg.trans h.1
  rw [accept_runs h, hf, hr, State.finish, State.begin, ← h₂]

/-! ### Frames in closed form -/

theorem Bus.eq_of_fields {b c : Bus} (hp : b.pads = c.pads) (hs : b.shift = c.shift) (hb : b.bitcnt = c.bitcnt)
    (ha : b.ack = c.ack) (ht : b.trace = c.trace) (hn : b.answers = c.answers) (hd : b.sampleDraws = c.sampleDraws)
    (hr : b.rx = c.rx) : b = c := by
  cases b; cases c; simp_all

/-- ACK after frames is the last answer used (R30). -/
theorem Bus.sendFrames_ack (us : Nat) (fs : List (List Byte)) (b : Bus) (hf : fs ≠ []) (h : ∀ f ∈ fs, f ≠ []) :
    (upcoming (fs.map List.length).sum b).getLast? = some (b.sendFrames us fs).ack := by
  induction fs generalizing b with
  | nil => exact absurd rfl hf
  | cons f fs ih =>
    have hu := Bus.sendFrame_answersUsed us f b
    have hfirst : (upcoming f.length b).getLast? = some (b.sendFrame us f).ack := by
      rw [upcoming_congr (b := b) (c := b.start) f.length rfl rfl]
      exact Bus.writeBytes_ack us f b.start (h f (by simp))
    rw [Bus.sendFrames, List.map_cons, List.sum_cons, upcoming_add, ← upcoming_congr _ hu.1 hu.2,
      List.getLast?_append]
    by_cases hfs : fs = []
    · subst hfs
      simpa [upcoming, Bus.sendFrames] using hfirst
    · rw [ih _ hfs fun g hg => h g (by simp [hg])]
      rfl

/-- Frames of at least one byte each: everything they do to the bus, but for what the receiver hears (R88). -/
theorem Bus.sendFrames_eq (us : Nat) (fs : List (List Byte)) (b : Bus) (hf : fs ≠ []) (h : ∀ f ∈ fs, f ≠ []) :
    b.sendFrames us fs = busAfterFrames us fs (b.sendFrames us fs).rx false b := by
  have hu := Bus.sendFrames_answersUsed us fs b
  refine Bus.eq_of_fields (Bus.sendFrames_pads us fs b hf h) (Bus.sendFrames_registers us fs b hf h).1
    (Bus.sendFrames_registers us fs b hf h).2 ?_ (Bus.sendFrames_trace us fs b) hu.1 hu.2 rfl
  have ha := Bus.sendFrames_ack us fs b hf h
  simp [busAfterFrames, List.getLastD_eq_getLast?, ha]

theorem Bus.sendFrames_append (us : Nat) (fs gs : List (List Byte)) (b : Bus) :
    b.sendFrames us (fs ++ gs) = (b.sendFrames us fs).sendFrames us gs := by
  induction fs generalizing b with
  | nil => rfl
  | cons f fs ih => exact ih _

/-! ### The writes of the display operations -/

/-- One WRITEONE-shaped write is its three frames (R95). -/
theorem State.writeSegment_eq (pos seg : Byte) (s : State) :
    s.writeSegment pos seg = { s with
      bus := s.bus.sendFrames s.params.bitDelayUs (oneFrames s.dctrl pos seg) } := rfl

theorem State.writeOne_eq (pos d : Byte) (s : State) :
    s.writeOne pos d = { s with
      bus := s.bus.sendFrames s.params.bitDelayUs
        (oneFrames s.dctrl pos (Machine.encodeCode s.params s.point d)) } := rfl

theorem State.writeAll_eq (d0 d1 d2 d3 : Byte) (s : State) :
    s.writeAll d0 d1 d2 d3 = { s with
      segbuf := #v[s.encodeCode d0, s.encodeCode d1, s.encodeCode d2, s.encodeCode d3]
      bus := s.bus.sendFrames s.params.bitDelayUs
        (allFrames s.dctrl s.acmd [s.encodeCode d0, s.encodeCode d1, s.encodeCode d2, s.encodeCode d3]) } := rfl

/-- Frames after frames are frames (R88). -/
theorem State.sendFrames_sendFrames (fs gs : List (List Byte)) (s : State) :
    (s.sendFrames fs).sendFrames gs = s.sendFrames (fs ++ gs) := by
  simp [State.sendFrames, State.onBus, Bus.sendFrames_append]

theorem State.writeSegment_sends (pos seg : Byte) (s : State) :
    s.writeSegment pos seg = s.sendFrames (oneFrames s.dctrl pos seg) := rfl

theorem State.writeOne_sends (pos d : Byte) (s : State) :
    s.writeOne pos d = s.sendFrames (oneFrames s.dctrl pos (Machine.encodeCode s.params s.point d)) := rfl

/-- Sending frames does not touch what the next frames are computed from (R24). -/
@[simp] theorem State.sendFrames_dctrl (fs : List (List Byte)) (s : State) : (s.sendFrames fs).dctrl = s.dctrl := rfl
@[simp] theorem State.sendFrames_acmd (fs : List (List Byte)) (s : State) : (s.sendFrames fs).acmd = s.acmd := rfl
@[simp] theorem State.sendFrames_point (fs : List (List Byte)) (s : State) : (s.sendFrames fs).point = s.point := rfl
@[simp] theorem State.sendFrames_params (fs : List (List Byte)) (s : State) :
    (s.sendFrames fs).params = s.params := rfl
@[simp] theorem State.sendFrames_byteDraws (fs : List (List Byte)) (s : State) :
    (s.sendFrames fs).byteDraws = s.byteDraws := rfl

theorem State.sendFrames_begin (fs : List (List Byte)) (i : Instr) (s : State) :
    (s.begin i).sendFrames fs = (s.sendFrames fs).begin i := rfl

theorem State.sendFrames_seq (fs : List (List Byte)) (s : State) : (s.sendFrames fs).seq = s.seq := rfl

theorem State.writeOne_begin (pos d : Byte) (i : Instr) (s : State) :
    (s.begin i).writeOne pos d = (s.writeOne pos d).begin i := by
  rw [State.writeOne_sends, State.writeOne_sends, State.begin_dctrl, State.begin_params, State.begin_point,
    State.sendFrames_begin]

theorem State.writeOne_seq (pos d : Byte) (s : State) : (s.writeOne pos d).seq = s.seq := by
  rw [State.writeOne_sends, State.sendFrames_seq]

/-- CLEAR is four WRITEONE-shaped writes (R96). -/
theorem State.clearAll_sends (s : State) :
    s.clearAll = s.sendFrames ([0, 1, 2, 3].flatMap fun p : Byte =>
      oneFrames s.dctrl p (Machine.encodeCode s.params s.point Config.blankCode)) := by
  simp only [State.clearAll, State.writeOne_sends, State.sendFrames_sendFrames, State.sendFrames_dctrl,
    State.sendFrames_point, State.sendFrames_params, List.flatMap_cons, List.flatMap_nil, List.append_nil,
    List.append_assoc]

theorem State.clearAll_begin (i : Instr) (s : State) : (s.begin i).clearAll = s.clearAll.begin i := by
  rw [State.clearAll_sends, State.clearAll_sends, State.begin_dctrl, State.begin_params, State.begin_point,
    State.sendFrames_begin]

theorem State.clearAll_seq (s : State) : s.clearAll.seq = s.seq := by rw [State.clearAll_sends, State.sendFrames_seq]

/-- The digits of DISPNUM are one WRITEONE-shaped write for each position, the `i`-th of `m / 10^i` (R101). -/
theorem State.renderDigits_sends (ps : List Byte) (m : Nat) (s : State) :
    s.renderDigits ps m = s.sendFrames (ps.zipIdx.flatMap fun pi =>
      oneFrames s.dctrl pi.1 (Machine.encodeCode s.params s.point (digitCode (m / 10 ^ pi.2)))) := by
  induction ps generalizing m s with
  | nil => rfl
  | cons p ps ih =>
    rw [State.renderDigits, ih, State.writeOne_sends, State.sendFrames_sendFrames, List.zipIdx_cons,
      List.flatMap_cons, List.zipIdx_succ, List.flatMap_map]
    simp [Nat.div_div_eq_div_mul, Nat.pow_succ, Nat.mul_comm]

/-- The drawn bytes of DISPNUM, one for each position in order (R99, R101). -/
theorem State.renderDraws_sends (ps : List Byte) (s : State) :
    s.renderDraws ps = { s.sendFrames (ps.zipIdx.flatMap fun pi =>
        oneFrames s.dctrl pi.1 (Config.freeByte (s.byteDraws + pi.2))) with
      byteDraws := s.byteDraws + ps.length } := by
  induction ps generalizing s with
  | nil => rfl
  | cons p ps ih =>
    rw [State.renderDraws, ih, List.zipIdx_cons, List.flatMap_cons, List.zipIdx_succ, List.flatMap_map]
    simp [State.writeDraw, State.writeSegment_sends, State.sendFrames, State.onBus, Bus.sendFrames_append,
      Nat.add_assoc, Nat.add_comm 1]

theorem State.renderNumber_begin (ps : List Byte) (m : Option Nat) (i : Instr) (s : State) :
    (s.begin i).renderNumber ps m = (s.renderNumber ps m).begin i := by
  cases m with
  | some m =>
    simp only [State.renderNumber]
    rw [State.renderDigits_sends, State.renderDigits_sends, State.begin_dctrl, State.begin_params, State.begin_point,
      State.sendFrames_begin]
  | none =>
    simp only [State.renderNumber]
    rw [State.renderDraws_sends, State.renderDraws_sends, State.begin_dctrl, State.begin_byteDraws]
    rfl

/-- DISPNUM's work does not look at the sequencer (R33). -/
theorem State.renderValue_begin (value : Number) (dp : Byte) (minus : Bool) (i : Instr) (s : State) :
    (s.begin i).renderValue value dp minus = (s.renderValue value dp minus).begin i := by
  have h : (s.begin i).setPoint (pointOfPlaces dp) = (s.setPoint (pointOfPlaces dp)).begin i := rfl
  simp only [State.renderValue, State.begin_params, h, State.renderNumber_begin, State.renderMinus]
  split
  · exact State.writeOne_begin _ _ _ _
  · rfl

theorem State.scrollWindow_begin (text : List Byte) (ms : Nat) (k : Int) (i : Instr) (s : State) :
    State.scrollWindow text ms (s.begin i) k = (State.scrollWindow text ms s k).begin i := by
  unfold State.scrollWindow
  split <;> rfl

/-- DISPTEXT's work does not look at the sequencer (R33). -/
theorem State.renderText_begin (text : List Byte) (ms : Nat) (i : Instr) (s : State) :
    (s.begin i).renderText text ms = (s.renderText text ms).begin i := by
  have h (ks : List Int) (s : State) : ks.foldl (State.scrollWindow text ms) (s.begin i) =
      (ks.foldl (State.scrollWindow text ms) s).begin i := by
    induction ks generalizing s with
    | nil => rfl
    | cons k ks ih => rw [List.foldl_cons, State.scrollWindow_begin, ih, List.foldl_cons]
  unfold State.renderText
  split
  · rfl
  · exact h _ s

theorem State.renderNumber_seq (ps : List Byte) (m : Option Nat) (s : State) : (s.renderNumber ps m).seq = s.seq := by
  cases m with
  | some m => simp only [State.renderNumber, State.renderDigits_sends, State.sendFrames_seq]
  | none => simp only [State.renderNumber, State.renderDraws_sends, State.sendFrames_seq]

theorem State.renderValue_seq (value : Number) (dp : Byte) (minus : Bool) (s : State) :
    (s.renderValue value dp minus).seq = s.seq := by
  have h (neg : Bool) (s : State) : (s.renderMinus neg).seq = s.seq := by
    unfold State.renderMinus
    split
    · exact s.writeOne_seq _ _
    · rfl
  rw [State.renderValue, h, State.renderNumber_seq]
  rfl

theorem State.renderText_seq (text : List Byte) (ms : Nat) (s : State) : (s.renderText text ms).seq = s.seq := by
  have h₁ (s : State) (k : Int) : (State.scrollWindow text ms s k).seq = s.seq := by
    unfold State.scrollWindow; split <;> rfl
  have h (ks : List Int) (s : State) : (ks.foldl (State.scrollWindow text ms) s).seq = s.seq := by
    induction ks generalizing s with
    | nil => rfl
    | cons k ks ih => rw [List.foldl_cons, ih, h₁]
  unfold State.renderText
  split
  · rfl
  · exact h _ s

/-! ### Each operation on a ready block, in terms of its shared operation -/

/-- An operation without a value has the same result in every state (R18). -/
theorem noResult_eq (s t : State) : noResult s = noResult t := rfl

section Ready

variable {s : State}

theorem exec_init (h : Ready s) : exec .init s = .next { s.clearAll with ret := .none } :=
  accept_next (body := State.clearAll) (result := noResult) h (s.clearAll_begin _) s.clearAll_seq (noResult_eq _ _)

theorem exec_configure (h : Ready s) (b : Byte) (dcmd acmd : Option Byte) (hb : ¬ b > 7) :
    exec (.configure b dcmd acmd) s = .next { s.setConfig b dcmd acmd with ret := .none } := by
  simp only [exec, execConfigure, hb, if_false]
  exact accept_next (body := State.setConfig b dcmd acmd) (result := noResult) h rfl rfl (noResult_eq _ _)

theorem exec_setpoint (h : Ready s) (on : Bool) :
    exec (.setpoint on) s = .next { s.setPoint on with ret := .none } :=
  accept_next (body := State.setPoint on) (result := noResult) h rfl rfl (noResult_eq _ _)

theorem exec_writeall (h : Ready s) (d0 d1 d2 d3 : Byte) :
    exec (.writeall d0 d1 d2 d3) s = .next { s.writeAll d0 d1 d2 d3 with ret := .none } :=
  accept_next (body := State.writeAll d0 d1 d2 d3) (result := noResult) h rfl rfl (noResult_eq _ _)

theorem exec_writeone (h : Ready s) (pos d : Byte) (hp : ¬ pos > 3) :
    exec (.writeone pos d) s = .next { s.writeOne pos d with ret := .none } := by
  simp only [exec, execWriteone, hp, if_false]
  exact accept_next (body := State.writeOne pos d) (result := noResult) h (s.writeOne_begin _ _ _) (s.writeOne_seq _ _) (noResult_eq _ _)

theorem exec_clear (h : Ready s) : exec .clear s = .next { s.clearAll with ret := .none } :=
  accept_next (body := State.clearAll) (result := noResult) h (s.clearAll_begin _) s.clearAll_seq (noResult_eq _ _)

theorem exec_dispnum (h : Ready s) (value : Number) (dp : Byte) (minus : Bool) (hd : ¬ (dp ≠ 0 ∧ dp ≠ 2)) :
    exec (.dispnum value dp minus) s = .next { s.renderValue value dp minus with ret := .none } := by
  simp only [exec, execDispnum, hd, if_false]
  exact accept_next (body := State.renderValue value dp minus) (result := noResult) h
    (s.renderValue_begin _ _ _ _) (s.renderValue_seq _ _ _) (noResult_eq _ _)

theorem exec_disptext (h : Ready s) (text : List Byte) (ms : Nat) :
    exec (.disptext text ms) s = .next { s.renderText text ms with ret := .none } :=
  accept_next (body := State.renderText text ms) (result := noResult) h (s.renderText_begin _ _ _)
    (s.renderText_seq _ _) (noResult_eq _ _)

theorem exec_start (h : Ready s) : exec .start s = .next { s.onBus Bus.start with ret := .none } :=
  accept_next (body := State.onBus Bus.start) (result := noResult) h rfl rfl (noResult_eq _ _)

theorem exec_stop (h : Ready s) : exec .stop s = .next { s.onBus Bus.stop with ret := .none } :=
  accept_next (body := State.onBus Bus.stop) (result := noResult) h rfl rfl (noResult_eq _ _)

theorem exec_writebyte (h : Ready s) (v : Byte) : exec (.writebyte v) s =
    .next { s.onBus (Bus.writeByte s.params.bitDelayUs v) with ret := .ack s.bus.nextAnswer } := by
  have hr := Bus.writeByte_ack s.params.bitDelayUs v s.bus
  rw [← hr]
  exact accept_next (body := State.onBus (Bus.writeByte s.params.bitDelayUs v)) (result := fun t => .ack t.bus.ack) h rfl rfl rfl

theorem exec_bitdelay (h : Ready s) : exec .bitdelay s =
    .next { s.onBus (Bus.emit (.waitUs s.params.bitDelayUs)) with ret := .none } :=
  accept_next (body := State.onBus (Bus.emit (.waitUs s.params.bitDelayUs))) (result := noResult) h rfl rfl (noResult_eq _ _)

theorem exec_encode (h : Ready s) (c : Byte) :
    exec (.encode c) s = .next { s with ret := .segment (s.encodeCode c) } :=
  accept_next (body := id) (result := fun t => .segment (t.encodeCode c)) h rfl rfl rfl

end Ready

end Sys2Proof.Machine
end

