-- ==== Sys2Proof/Laws/Closed.lean ====
section
/-!
SUPPORT. Properties of the bus that every operation of the Bus Transport keeps: shown for the primitive changes
once, carried through START, STOP, WRITEBYTE and frames.
-/

namespace Sys2Proof.Machine

open Sys2Proof.Safety

/-- `P` is kept by the primitive changes of the bus: an event on the pads, an answer used up, and writes of the
three working registers. -/
structure Bus.Closed (P : Bus → Prop) : Prop where
  drive : ∀ e p b, P b → P (b.drive e p)
  take : ∀ b, P b → P b.takeAnswer
  shift : ∀ v n b, P b → P { b with shift := v, bitcnt := n }
  ack : ∀ l b, P b → P { b with ack := l }

namespace Bus.Closed

variable {P : Bus → Prop}

theorem emit (h : Bus.Closed P) (e : Event) {b : Bus} (hb : P b) : P (b.emit e) := h.drive _ _ _ hb

theorem start (h : Bus.Closed P) {b : Bus} (hb : P b) : P b.start :=
  h.emit _ (h.emit _ (h.emit _ (h.emit _ hb)))

theorem stop (h : Bus.Closed P) {b : Bus} (hb : P b) : P b.stop :=
  h.emit _ (h.emit _ (h.emit _ (h.emit _ hb)))

theorem sendBits (h : Bus.Closed P) (n : Nat) {b : Bus} (hb : P b) : P (Bus.sendBits n b) := by
  induction n generalizing b with
  | zero => exact hb
  | succ n ih => exact ih (h.shift _ _ _ (h.emit _ (h.emit _ (h.emit _ hb))))

theorem ackPhase (h : Bus.Closed P) (us : Nat) {b : Bus} (hb : P b) : P (b.ackPhase us) := by
  have hs : ∀ c, P c → P (Bus.sample c) := fun c hc => h.ack _ _ (h.emit _ hc)
  have hr : ∀ c, P c → P (Bus.release c) := fun c hc => h.take _ (h.drive _ _ _ hc)
  have ha : ∀ c, P c → P (Bus.reassert c) := fun c hc => by
    unfold Bus.reassert
    split
    · exact h.emit _ (h.emit _ hc)
    · exact hc
  exact h.emit _ (h.emit _ (h.emit _ (h.emit _ (ha _ (hs _ (h.emit _ (h.emit _ (hr _ (h.drive _ _ _ hb)))))))))

theorem writeByte (h : Bus.Closed P) (us : Nat) (v : Byte) {b : Bus} (hb : P b) : P (b.writeByte us v) :=
  h.ackPhase us (h.sendBits 8 (h.shift v 0 b hb))

theorem writeBytes (h : Bus.Closed P) (us : Nat) (vs : List Byte) {b : Bus} (hb : P b) : P (b.writeBytes us vs) := by
  induction vs generalizing b with
  | nil => exact hb
  | cons v vs ih => exact ih (h.writeByte us v hb)

theorem sendFrames (h : Bus.Closed P) (us : Nat) (fs : List (List Byte)) {b : Bus} (hb : P b) :
    P (b.sendFrames us fs) := by
  induction fs generalizing b with
  | nil => exact hb
  | cons f fs ih => exact ih (h.stop (h.writeBytes us f (h.start hb)))

end Bus.Closed

/-- Hearing the lines keeps at most a byte of levels (R121). -/
theorem hear_collects (rx : Receiver) (clk dio : Level) (h : rx.bits.length ≤ 8) : (rx.hear clk dio).bits.length ≤ 8 := by
  have hr : (rx.risingEdge dio).bits.length ≤ 8 := by
    unfold Receiver.risingEdge
    split
    · split
      · simp; omega
      · split <;> simp; omega
    · exact h
  have hs : rx.stopCondition.bits.length ≤ 8 := by
    simp [Receiver.stopCondition]
  unfold Receiver.hear
  simp only
  split
  · exact hr
  · split
    · simp [Receiver.startCondition]
    · exact hs
    · exact h
  · exact h

/-- The receiver never holds more than a byte of levels (R121). -/
theorem closed_collects : Bus.Closed fun b => b.rx.bits.length ≤ 8 where
  drive _ _ _ h := hear_collects _ _ _ h
  take b h := by simpa using h
  shift _ _ _ h := h
  ack _ _ h := h

/-- The trace only grows (R35). -/
theorem closed_trace (es : List Event) : Bus.Closed fun b => es <+: b.trace where
  drive e p b h := h.trans (List.prefix_append _ _)
  take b h := by simpa using h
  shift _ _ _ h := h
  ack _ _ h := h

end Sys2Proof.Machine
end

