-- ==== Sys2Proof/Laws/Frame.lean ====
section
/-!
SUPPORT. Everything an instruction that answers a next state can have done: a refusal, or its work, and what the work
leaves alone.
-/

namespace Sys2Proof.Machine

open Sys2Proof.Safety

/-- The work of an instruction, apart from its admission and its returned value. -/
def work : Instr → State → State
  | .construct clk dio => State.bindPins clk dio
  | .init => State.clearAll
  | .configure b dcmd acmd => State.setConfig b dcmd acmd
  | .setpoint on => State.setPoint on
  | .writeall d0 d1 d2 d3 => State.writeAll d0 d1 d2 d3
  | .writeone pos d => State.writeOne pos d
  | .clear => State.clearAll
  | .dispnum value dp minus => State.renderValue value dp minus
  | .disptext text ms => State.renderText text ms
  | .start => State.onBus Bus.start
  | .stop => State.onBus Bus.stop
  | .writebyte v => fun s => s.onBus (Bus.writeByte s.params.bitDelayUs v)
  | .bitdelay => fun s => s.onBus (Bus.emit (.waitUs s.params.bitDelayUs))
  | .encode _ => id
  | .wireDataAuto => State.onReceiver (Receiver.setMode .auto)
  | .wireDataFixed => State.onReceiver (Receiver.setMode .fixed)
  | .wireAddr p payload => State.onReceiver (Receiver.store p.toNat payload)
  | .wireDispctrl b => State.onReceiver (Receiver.setBright b)

/-- May the instruction run in this state? A host operation needs an idle sequencer, operands within R58, and a
construction before it, or for CONSTRUCT none before it (R110, R112). -/
def Runs (i : Instr) (s : State) : Prop :=
  i.wellFormed = true ∧ (i.isHostOp = true → s.seq = .idle ∧ (s.constructed = false ↔ ∃ clk dio, i = .construct clk dio))

/-- Everything an instruction that answers a next state can have done: it was refused, leaving a mark, or it did its
work (R109, R112). -/
theorem exec_cases {i : Instr} {s t : State} (h : exec i s = .next t) :
    (s.seq = .idle ∧ ∃ r, t = s.refuse r (encode i)) ∨ (Runs i s ∧ ∃ r, t = { work i s with ret := r }) := by
  have run {check : Option Reason} {body : State → State} {result : State → Ret} {t : State}
      (hx : s.accept i check body result = .next t) (hw : check = none → i.wellFormed = true)
      (hn : ¬ ∃ clk dio, i = .construct clk dio) (hb : body (s.begin i) = (work i s).begin i)
      (hq : (work i s).seq = s.seq) :
      (s.seq = .idle ∧ ∃ r, t = s.refuse r (encode i)) ∨ (Runs i s ∧ ∃ r, t = { work i s with ret := r }) := by
    obtain ⟨hs, ⟨r, hr⟩ | ⟨hc, hk, ht⟩⟩ := accept_cases hx
    · exact .inl ⟨hs, r, hr⟩
    · refine .inr ⟨⟨hw hk, fun _ => ⟨hs, by simp [hc, hn]⟩⟩, result (body (s.begin i)), ?_⟩
      have h₂ : (work i s).seq = .idle := hq.trans hs
      rw [ht, hb, State.finish, State.begin, ← h₂]
  cases i with
  | construct clk dio =>
    simp only [exec, execConstruct, State.ifIdle] at h
    split at h
    next hs =>
      split at h
      next => exact .inl ⟨hs, _, (Host.Outcome.next.inj h).symm⟩
      next hc =>
        split at h
        next => exact .inl ⟨hs, _, (Host.Outcome.next.inj h).symm⟩
        next hd =>
          refine .inr ⟨⟨by simpa [Instr.wellFormed] using hd, fun _ => ⟨hs, by simp [hc]⟩⟩, .none, ?_⟩
          rw [← Host.Outcome.next.inj h, State.finish, ← hs]
          rfl
    next => cases h
  | configure b dcmd acmd =>
    refine run h (fun hk => ?_) (by simp) rfl rfl
    simp only [Instr.wellFormed]
    split at hk
    · cases hk
    · simpa using ‹¬ b > 7›
  | writeone pos d =>
    refine run h (fun hk => ?_) (by simp) (State.writeOne_begin _ _ _ s) (State.writeOne_seq _ _ s)
    simp only [Instr.wellFormed]
    split at hk
    · cases hk
    · simpa using ‹¬ pos > 3›
  | dispnum value dp minus =>
    refine run h (fun hk => ?_) (by simp) (State.renderValue_begin _ _ _ _ s) (State.renderValue_seq _ _ _ s)
    simp only [Instr.wellFormed]
    split at hk
    · cases hk
    next hd => simp only [decide_eq_true_eq]; tauto
  | init =>
    simp only [exec, execInit] at h
    exact run h (fun _ => rfl) (by simp) (State.clearAll_begin _ s) (State.clearAll_seq s)
  | clear =>
    simp only [exec, execClear] at h
    exact run h (fun _ => rfl) (by simp) (State.clearAll_begin _ s) (State.clearAll_seq s)
  | disptext text ms =>
    simp only [exec, execDisptext] at h
    exact run h (fun _ => rfl) (by simp) (State.renderText_begin _ _ _ s) (State.renderText_seq _ _ s)
  | setpoint on =>
    simp only [exec, execSetpoint] at h
    exact run h (fun _ => rfl) (by simp) rfl rfl
  | writeall d0 d1 d2 d3 =>
    simp only [exec, execWriteall] at h
    exact run h (fun _ => rfl) (by simp) rfl rfl
  | start =>
    simp only [exec, execStart] at h
    exact run h (fun _ => rfl) (by simp) rfl rfl
  | stop =>
    simp only [exec, execStop] at h
    exact run h (fun _ => rfl) (by simp) rfl rfl
  | writebyte v =>
    simp only [exec, execWritebyte] at h
    exact run h (fun _ => rfl) (by simp) rfl rfl
  | bitdelay =>
    simp only [exec, execBitdelay] at h
    exact run h (fun _ => rfl) (by simp) rfl rfl
  | encode c =>
    simp only [exec, execEncode] at h
    exact run h (fun _ => rfl) (by simp) rfl rfl
  | wireDataAuto => exact .inr ⟨⟨rfl, fun hh => by cases hh⟩, s.ret, (Host.Outcome.next.inj h).symm⟩
  | wireDataFixed => exact .inr ⟨⟨rfl, fun hh => by cases hh⟩, s.ret, (Host.Outcome.next.inj h).symm⟩
  | wireAddr p payload => exact .inr ⟨⟨rfl, fun hh => by cases hh⟩, s.ret, (Host.Outcome.next.inj h).symm⟩
  | wireDispctrl b => exact .inr ⟨⟨rfl, fun hh => by cases hh⟩, s.ret, (Host.Outcome.next.inj h).symm⟩

/-! ### What display and transport work leaves alone -/

/-- Only the bus, SEGBUF and the draw counter differ, and the bus keeps `P`. -/
def Kept (P : Bus → Prop) (s t : State) : Prop :=
  t = { s with segbuf := t.segbuf, bus := t.bus, byteDraws := t.byteDraws } ∧ (P s.bus → P t.bus)

namespace Kept

variable {P : Bus → Prop} {s t u : State}

theorem refl (s : State) : Kept P s s := ⟨rfl, id⟩

theorem trans (h₁ : Kept P s t) (h₂ : Kept P t u) : Kept P s u := by
  obtain ⟨e₁, p₁⟩ := h₁
  obtain ⟨e₂, p₂⟩ := h₂
  refine ⟨?_, p₂ ∘ p₁⟩
  rw [e₂, e₁]

theorem onBus (f : Bus → Bus) (hf : ∀ b, P b → P (f b)) (s : State) : Kept P s (s.onBus f) := ⟨rfl, hf s.bus⟩

theorem sendFrames (h : Bus.Closed P) (fs : List (List Byte)) (s : State) : Kept P s (s.sendFrames fs) :=
  onBus _ (fun _ hb => h.sendFrames _ fs hb) s

theorem writeOne (h : Bus.Closed P) (pos d : Byte) (s : State) : Kept P s (s.writeOne pos d) := sendFrames h _ s

theorem writeAll (h : Bus.Closed P) (d0 d1 d2 d3 : Byte) (s : State) : Kept P s (s.writeAll d0 d1 d2 d3) :=
  (show Kept P s (s.loadSegbuf d0 d1 d2 d3) from ⟨rfl, id⟩).trans (sendFrames h _ _)

theorem clearAll (h : Bus.Closed P) (s : State) : Kept P s s.clearAll := by
  rw [State.clearAll_sends]
  exact sendFrames h _ s

theorem renderNumber (h : Bus.Closed P) (ps : List Byte) (m : Option Nat) (s : State) :
    Kept P s (s.renderNumber ps m) := by
  cases m with
  | some m => simp only [State.renderNumber, State.renderDigits_sends]; exact sendFrames h _ s
  | none =>
    simp only [State.renderNumber, State.renderDraws_sends]
    exact ⟨rfl, (sendFrames h _ s).2⟩

theorem renderMinus (h : Bus.Closed P) (neg : Bool) (s : State) : Kept P s (s.renderMinus neg) := by
  unfold State.renderMinus
  split
  · exact writeOne h _ _ s
  · exact refl s

/-- DISPNUM writes POINT and nothing else of the configuration (R102). -/
theorem renderValue (h : Bus.Closed P) (value : Number) (dp : Byte) (minus : Bool) (s : State) :
    Kept P (s.setPoint (pointOfPlaces dp)) (s.renderValue value dp minus) :=
  (renderNumber h _ _ _).trans (renderMinus h _ _)

theorem scrollWindow (h : Bus.Closed P) (text : List Byte) (ms : Nat) (s : State) (k : Int) :
    Kept P s (State.scrollWindow text ms s k) := by
  unfold State.scrollWindow
  split
  · exact (onBus _ (fun _ hb => h.emit _ hb) s).trans (writeAll h _ _ _ _ _)
  · exact writeAll h _ _ _ _ s

theorem renderText (h : Bus.Closed P) (text : List Byte) (ms : Nat) (s : State) : Kept P s (s.renderText text ms) := by
  unfold State.renderText
  split
  · exact writeAll h _ _ _ _ s
  · generalize windowStarts text.length = ks
    induction ks generalizing s with
    | nil => exact refl s
    | cons k ks ih => exact (scrollWindow h text ms s k).trans (ih _)

end Kept

/-- The work of a host operation that writes no configuration touches the bus, SEGBUF and the draw counter only, and
DISPNUM also POINT. -/
theorem work_kept {P : Bus → Prop} (h : Bus.Closed P) {i : Instr} (hi : i.isHostOp = true)
    (hc : ∀ clk dio, i ≠ .construct clk dio) (s : State) :
    (∃ s', (s' = s ∨ (∃ b d a, i = .configure b d a ∧ s' = s.setConfig b d a) ∨
        (∃ on, i = .setpoint on ∧ s' = s.setPoint on) ∨
        (∃ v dp m, i = .dispnum v dp m ∧ s' = s.setPoint (pointOfPlaces dp))) ∧ Kept P s' (work i s)) := by
  cases i with
  | construct clk dio => exact absurd rfl (hc clk dio)
  | init => exact ⟨s, .inl rfl, .clearAll h s⟩
  | clear => exact ⟨s, .inl rfl, .clearAll h s⟩
  | configure b d a => exact ⟨_, .inr (.inl ⟨b, d, a, rfl, rfl⟩), .refl _⟩
  | setpoint on => exact ⟨_, .inr (.inr (.inl ⟨on, rfl, rfl⟩)), .refl _⟩
  | writeall d0 d1 d2 d3 => exact ⟨s, .inl rfl, .writeAll h _ _ _ _ s⟩
  | writeone pos d => exact ⟨s, .inl rfl, .writeOne h _ _ s⟩
  | dispnum v dp m => exact ⟨_, .inr (.inr (.inr ⟨v, dp, m, rfl, rfl⟩)), .renderValue h v dp m s⟩
  | disptext text ms => exact ⟨s, .inl rfl, .renderText h text ms s⟩
  | start => exact ⟨s, .inl rfl, .onBus _ (fun _ hb => h.start hb) s⟩
  | stop => exact ⟨s, .inl rfl, .onBus _ (fun _ hb => h.stop hb) s⟩
  | writebyte v => exact ⟨s, .inl rfl, .onBus _ (fun _ hb => h.writeByte _ v hb) s⟩
  | bitdelay => exact ⟨s, .inl rfl, .onBus _ (fun _ hb => h.emit _ hb) s⟩
  | encode c => exact ⟨s, .inl rfl, .refl s⟩
  | wireDataAuto => cases hi
  | wireDataFixed => cases hi
  | wireAddr p payload => cases hi
  | wireDispctrl b => cases hi

/-- The work of a wire command is done by the receiver alone (entry 18). -/
theorem work_wire {i : Instr} (hi : i.isHostOp = false) (s : State) : ∃ f, work i s = s.onReceiver f := by
  cases i <;> first | (cases hi; done) | exact ⟨_, rfl⟩

/-- An instruction that may run does its work and answers a next state. -/
theorem exec_of_runs {i : Instr} {s : State} (h : Runs i s) : ∃ r, exec i s = .next { work i s with ret := r } := by
  obtain ⟨hw, hh⟩ := h
  have ready (hi : i.isHostOp = true) (hn : ¬ ∃ clk dio, i = .construct clk dio) : Ready s := by
    refine ⟨(hh hi).1, ?_⟩
    cases hc : s.constructed
    · exact absurd ((hh hi).2.1 hc) hn
    · rfl
  cases i with
  | construct clk dio =>
    obtain ⟨hs, hc⟩ := hh rfl
    have hd : clk ≠ dio := by simpa [Instr.wellFormed] using hw
    refine ⟨.none, ?_⟩
    simp only [exec, execConstruct, State.ifIdle, hs, hc.2 ⟨_, _, rfl⟩, hd, Bool.false_eq_true, if_false]
    rw [State.finish, ← hs]
    rfl
  | init => exact ⟨.none, exec_init (ready rfl (by simp))⟩
  | clear => exact ⟨.none, exec_clear (ready rfl (by simp))⟩
  | configure b d a => exact ⟨.none, exec_configure (ready rfl (by simp)) _ _ _ (by simpa [Instr.wellFormed] using hw)⟩
  | setpoint on => exact ⟨.none, exec_setpoint (ready rfl (by simp)) _⟩
  | writeall d0 d1 d2 d3 => exact ⟨.none, exec_writeall (ready rfl (by simp)) _ _ _ _⟩
  | writeone pos d => exact ⟨.none, exec_writeone (ready rfl (by simp)) _ _ (by simpa [Instr.wellFormed] using hw)⟩
  | dispnum v dp m =>
    have hd : ¬ (dp ≠ 0 ∧ dp ≠ 2) := by
      simp only [Instr.wellFormed, decide_eq_true_eq] at hw
      tauto
    exact ⟨.none, exec_dispnum (ready rfl (by simp)) _ _ _ hd⟩
  | disptext text ms => exact ⟨.none, exec_disptext (ready rfl (by simp)) _ _⟩
  | start => exact ⟨.none, exec_start (ready rfl (by simp))⟩
  | stop => exact ⟨.none, exec_stop (ready rfl (by simp))⟩
  | writebyte v => exact ⟨_, exec_writebyte (ready rfl (by simp)) _⟩
  | bitdelay => exact ⟨.none, exec_bitdelay (ready rfl (by simp))⟩
  | encode c => exact ⟨_, exec_encode (ready rfl (by simp)) _⟩
  | wireDataAuto => exact ⟨s.ret, rfl⟩
  | wireDataFixed => exact ⟨s.ret, rfl⟩
  | wireAddr p payload => exact ⟨s.ret, rfl⟩
  | wireDispctrl b => exact ⟨s.ret, rfl⟩

/-- Everything a step that answers a next state can have done: nothing was presented; or what stood first was run,
refused as unknown, an empty frame, or a foreign frame. -/
theorem step_cases {s t : State} (h : step s = .next t) :
    (s.host = [] ∧ t = s) ∨ ∃ p rest, s.host = p :: rest ∧
      ((∃ i, decode p = .ok i ∧ exec i { s with host := rest } = .next t) ∨
       (s.seq = .idle ∧ t = State.refuse .unknownOp p { s with host := rest }) ∨
       t = { s with host := rest } ∨ t = State.onReceiver Receiver.havoc { s with host := rest }) := by
  unfold step State.fetch at h
  cases hh : s.host with
  | nil =>
    simp only [hh] at h
    exact .inl ⟨rfl, (Host.Outcome.next.inj h).symm⟩
  | cons p rest =>
    refine .inr ⟨p, rest, rfl, ?_⟩
    simp only [hh, runPresented] at h
    split at h
    · exact .inl ⟨_, by assumption, h⟩
    · unfold State.ifIdle at h
      split at h
      · exact .inr (.inl ⟨by assumption, (Host.Outcome.next.inj h).symm⟩)
      · cases h
    · cases h
    · exact .inr (.inr (.inl (Host.Outcome.next.inj h).symm))
    · exact .inr (.inr (.inr (Host.Outcome.next.inj h).symm))

end Sys2Proof.Machine
end

