-- ==== Sys2Proof/Laws/PerInstr.lean ====
section
/-!
SUPPORT. Statements made of each instruction as syntax: its first byte matches exactly one row of the opcode table.
-/

namespace Sys2Proof.Laws

/-- How many rows of the opcode table a byte matches. -/
def rowsMatching (b : Byte) : Nat := opcodeTable.countP fun r => b &&& r.mask = r.pattern

/-- Exactly one row of the opcode table matches the first byte the instruction presents (R58, R64, R65, R66). -/
def TableMatch.Statement (i : Instr) : Prop := rowsMatching i.firstByte = 1

theorem TableMatch.construct (clk dio : PinId) : TableMatch.Statement (.construct clk dio) :=
  show rowsMatching 0x01 = 1 by decide +kernel

theorem TableMatch.init : TableMatch.Statement .init :=
  show rowsMatching 0x02 = 1 by decide +kernel

theorem TableMatch.configure (b : Byte) (dcmd acmd : Option Byte) : TableMatch.Statement (.configure b dcmd acmd) :=
  show rowsMatching 0x03 = 1 by decide +kernel

theorem TableMatch.setpoint (on : Bool) : TableMatch.Statement (.setpoint on) :=
  show rowsMatching 0x04 = 1 by decide +kernel

theorem TableMatch.writeall (d0 d1 d2 d3 : Byte) : TableMatch.Statement (.writeall d0 d1 d2 d3) :=
  show rowsMatching 0x05 = 1 by decide +kernel

theorem TableMatch.writeone (pos d : Byte) : TableMatch.Statement (.writeone pos d) :=
  show rowsMatching 0x06 = 1 by decide +kernel

theorem TableMatch.clear : TableMatch.Statement .clear :=
  show rowsMatching 0x07 = 1 by decide +kernel

theorem TableMatch.dispnum (value : Number) (dp : Byte) (minus : Bool) : TableMatch.Statement (.dispnum value dp minus) :=
  show rowsMatching 0x08 = 1 by decide +kernel

theorem TableMatch.disptext (text : List Byte) (ms : Nat) : TableMatch.Statement (.disptext text ms) :=
  show rowsMatching 0x09 = 1 by decide +kernel

theorem TableMatch.start : TableMatch.Statement .start :=
  show rowsMatching 0x10 = 1 by decide +kernel

theorem TableMatch.stop : TableMatch.Statement .stop :=
  show rowsMatching 0x11 = 1 by decide +kernel

theorem TableMatch.writebyte (v : Byte) : TableMatch.Statement (.writebyte v) :=
  show rowsMatching 0x12 = 1 by decide +kernel

theorem TableMatch.bitdelay : TableMatch.Statement .bitdelay :=
  show rowsMatching 0x13 = 1 by decide +kernel

theorem TableMatch.encode (c : Byte) : TableMatch.Statement (.encode c) :=
  show rowsMatching 0x14 = 1 by decide +kernel

theorem TableMatch.wireDataAuto : TableMatch.Statement .wireDataAuto :=
  show rowsMatching 0x40 = 1 by decide +kernel

theorem TableMatch.wireDataFixed : TableMatch.Statement .wireDataFixed :=
  show rowsMatching 0x44 = 1 by decide +kernel

theorem TableMatch.wireAddr (p : BitVec 2) (payload : List Byte) : TableMatch.Statement (.wireAddr p payload) := by
  have h : ∀ q : BitVec 2, rowsMatching (wireAddrByte q) = 1 := by decide +kernel
  exact h p

theorem TableMatch.wireDispctrl (b : BitVec 3) : TableMatch.Statement (.wireDispctrl b) := by
  have h : ∀ q : BitVec 3, rowsMatching (wireDispctrlByte q) = 1 := by decide +kernel
  exact h b

end Sys2Proof.Laws
end

