-- ==== Sys2Proof/Tests/Slice0.lean ====
section
/-!
SUPPORT. Tests on small states, with expected results from the spec (95_test_vectors.md where a vector is named), the
smoke test of WellFormed, the words of each encoding, and a witness for the hypotheses of each statement.
-/

namespace Sys2Proof.Tests

open Sys2Proof.Machine Sys2Proof.Safety

set_option Elab.async false

/-! ### Helpers -/

/-- The state of an outcome that is a next state; reset otherwise. -/
def stateOf : Host.Outcome State Fault Refusal → State
  | .next s => s
  | .fault _ => .reset
  | .refused _ => .reset

/-- Is an outcome a next state? -/
def isNext : Host.Outcome State Fault Refusal → Bool
  | .next _ => true
  | .fault _ => false
  | .refused _ => false

theorem next_of {o : Host.Outcome State Fault Refusal} (h : isNext o = true) : ∃ t, o = .next t := by
  cases o with
  | next t => exact ⟨t, rfl⟩
  | fault r => cases h
  | refused r => cases h

/-- The unconstructed block with the parameters of the vectors, and an environment. -/
def fresh (a : Answers) : State :=
  { State.reset with params := Config.vectorParams, bus := { Bus.reset with answers := a } }

/-- CONSTRUCT(2, 3) has just run. -/
def built (a : Answers) : State := stateOf (exec (.construct ⟨2⟩ ⟨3⟩) (fresh a))

/-- The same block on the idle bus, where the receiver, just powered on, has seen both lines HIGH: the level of an unwritten line is
a free value, of which no test can be run. -/
def onIdle (s : State) : State :=
  { s with bus := { s.bus with pads := idlePads, rx := { Receiver.powerOn with seenClk := .high, seenDio := .high } } }

/-- The state S0 of the vectors, on the idle bus: every sample answers 0. -/
def s0 : State := onIdle (built .reference)

/-- S0 with listed answers, a pull beginning at the release. -/
def s0With (vs : List Level) : State := onIdle (built (.oracle (vs.map fun v => ⟨v, false⟩)))

/-- S0 with a peripheral that acknowledges the next `n` bytes, its pull beginning at the falling edge (R134). -/
def s0Early (n : Nat) : State := onIdle (built (.oracle (List.replicate n ⟨.low, true⟩)))

/-- The state after an operation. -/
def after (i : Instr) (s : State) : State := stateOf (exec i s)

/-- The events an operation adds to the trace. -/
def added (i : Instr) (s : State) : List Event := (after i s).bus.trace.drop s.bus.trace.length

/-- The receiver after frames. -/
def afterFrames (fs : List (List Byte)) (s : State) : Receiver :=
  (fs.foldl (fun s f => stateOf (step { s with host := [.frame f] })) s).bus.rx

/-! ### WellFormed: an ill-formed term for each check, refused -/

theorem test_wf_same_pin : (Instr.construct ⟨7⟩ ⟨7⟩).wellFormed = false := by decide
theorem test_wf_brightness : (Instr.configure 8 none none).wellFormed = false := by decide
theorem test_wf_position : (Instr.writeone 4 0).wellFormed = false := by decide
theorem test_wf_places_one : (Instr.dispnum (.finite 1) 1 false).wellFormed = false := by decide
theorem test_wf_places_three : (Instr.dispnum (.finite 1) 3 true).wellFormed = false := by decide
theorem test_wf_admitted : [Instr.construct ⟨2⟩ ⟨3⟩, .configure 7 none none, .writeone 3 0xFF, .dispnum .nan 2 true,
    .disptext [] 0].all Instr.wellFormed = true := by decide

/-! ### Decoding: the word of each encoding, written out from R58, R64, R65 and R66 -/

theorem test_decode_construct :
    decode (.op ⟨0b00000001, [.pin ⟨2⟩, .pin ⟨3⟩]⟩) = .ok (.construct ⟨2⟩ ⟨3⟩) := by decide
theorem test_decode_init : decode (.op ⟨0b00000010, []⟩) = .ok .init := by decide
theorem test_decode_configure : decode (.op ⟨0b00000011, [.byte 1, .byteOrAbsent (some 0x44), .byteOrAbsent none]⟩) =
    .ok (.configure 1 (some 0x44) none) := by decide
theorem test_decode_setpoint : decode (.op ⟨0b00000100, [.bit true]⟩) = .ok (.setpoint true) := by decide
theorem test_decode_writeall :
    decode (.op ⟨0b00000101, [.byte 1, .byte 2, .byte 3, .byte 4]⟩) = .ok (.writeall 1 2 3 4) := by decide
theorem test_decode_writeone : decode (.op ⟨0b00000110, [.byte 4, .byte 0]⟩) = .ok (.writeone 4 0) := by decide
theorem test_decode_clear : decode (.op ⟨0b00000111, []⟩) = .ok .clear := by decide
theorem test_decode_dispnum : decode (.op ⟨0b00001000, [.number (.finite (1234 / 100)), .byte 2, .bit false]⟩) =
    .ok (.dispnum (.finite (1234 / 100)) 2 false) := by decide +kernel
theorem test_decode_disptext :
    decode (.op ⟨0b00001001, [.text [0x41, 0x42], .natural 500]⟩) = .ok (.disptext [0x41, 0x42] 500) := by decide
theorem test_decode_start : decode (.op ⟨0b00010000, []⟩) = .ok .start := by decide
theorem test_decode_stop : decode (.op ⟨0b00010001, []⟩) = .ok .stop := by decide
theorem test_decode_writebyte : decode (.op ⟨0b00010010, [.byte 0x44]⟩) = .ok (.writebyte 0x44) := by decide
theorem test_decode_bitdelay : decode (.op ⟨0b00010011, []⟩) = .ok .bitdelay := by decide
theorem test_decode_encode : decode (.op ⟨0b00010100, [.byte 0x7F]⟩) = .ok (.encode 0x7F) := by decide
theorem test_decode_wire_data_auto : decode (.frame [0b01000000]) = .ok .wireDataAuto := by decide
theorem test_decode_wire_data_fixed : decode (.frame [0b01000100]) = .ok .wireDataFixed := by decide
theorem test_decode_wire_addr : decode (.frame [0b11000010, 0x5B, 0x06]) = .ok (.wireAddr 2 [0x5B, 0x06]) := by decide
theorem test_decode_wire_dispctrl : decode (.frame [0b10001111]) = .ok (.wireDispctrl 7) := by decide

/-- Every opcode byte that is not among R58's is unknown, and no other is (R59). -/
theorem test_decode_unknown : (List.range 256).all (fun n =>
    (decode (.op ⟨BitVec.ofNat 8 n, []⟩) == .error .unknownOp) ==
      (n == 0 || (0x0A ≤ n && n ≤ 0x0F) || 0x15 ≤ n)) = true := by decide +kernel

/-- A wrong shape, a foreign command, an overlong command, an empty frame. -/
theorem test_decode_errors : decode (.op ⟨0x06, [.byte 1]⟩) = .error .operandShape ∧
    decode (.frame [0x80]) = .error .foreignFrame ∧ decode (.frame [0x40, 0x44]) = .error .foreignFrame ∧
    decode (.frame []) = .error .emptyFrame := by decide

/-- No byte matches two rows of the opcode table, and 28 bytes match one: 14 opcodes, 2 data
commands, 4 address commands and 8 display-control commands. -/
theorem test_table_rows_disjoint :
    (List.range 256).all (fun n => Laws.rowsMatching (BitVec.ofNat 8 n) ≤ 1) = true ∧
    (List.range 256).countP (fun n => Laws.rowsMatching (BitVec.ofNat 8 n) = 1) = 28 := by decide +kernel

/-- The patterns of the 18 rows decode to the instruction of their row; other words to nothing. -/
theorem test_table_words : (opcodeTable.map fun r => (decodeTableWord 8 r.pattern.toNat).map Instr.firstByte) =
      opcodeTable.map (fun r => some r.pattern) ∧
    decodeTableWord 8 0xC2 = some (.wireAddr 2 []) ∧ decodeTableWord 8 0x0A = none ∧ decodeTableWord 8 0x80 = none := by
  decide +kernel

/-- Each of the 18 words, placed at reset, is the next instruction that runs, and it runs unrefused. -/
theorem test_table_words_run : opcodeTable.all (fun r =>
    isNext (step (State.reset.withFetchWord 8 r.pattern.toNat)) &&
      (stateOf (step (State.reset.withFetchWord 8 r.pattern.toNat))).marks.isEmpty &&
      (stateOf (step (State.reset.withFetchWord 8 r.pattern.toNat))).host.isEmpty) = true := by decide +kernel

/-! ### Construction and configuration (section 2.3) -/

/-- D-1. -/
theorem test_construct_trace : (built .reference).bus.trace = [.coe true, .doe true] ∧
    (built .reference).dctrl = 0x8A ∧ (built .reference).dcmd = 0x40 ∧ (built .reference).acmd = 0xC0 ∧
    (built .reference).point = false ∧ (built .reference).bus.pads = freshPads ∧
    (built .reference).constructed = true := by decide +kernel
theorem test_construct_refusals :
    (after (.construct ⟨4⟩ ⟨5⟩) s0).marks.map (·.reason) = [.alreadyConstructed] ∧
    (after (.construct ⟨2⟩ ⟨2⟩) s0).marks.map (·.reason) = [.alreadyConstructed] ∧
    (after (.construct ⟨7⟩ ⟨7⟩) (fresh .reference)).marks.map (·.reason) = [.samePin] ∧
    (after (.construct ⟨7⟩ ⟨7⟩) (fresh .reference)).constructed = false := by decide +kernel

/-- D-2. -/
theorem test_configure_stores : (after (.configure 7 none none) s0).dctrl = 0x8F ∧
    (after (.configure 3 (some 0x44) none) s0).dcmd = 0x44 ∧ (after (.configure 3 (some 0x44) none) s0).acmd = 0xC0 ∧
    (after (.configure 5 (some 0x40) (some 0xC2)) s0).acmd = 0xC2 := by decide +kernel
theorem test_configure_refuses : (after (.configure 255 (some 0x44) (some 0xC1)) s0).dcmd = 0x40 ∧
    (after (.configure 8 none none) s0).marks = [⟨.brightnessRange, encode (.configure 8 none none)⟩] := by
  decide +kernel

/-- D-4. -/
theorem test_setpoint_on_off : (after (.setpoint true) s0).point = true ∧ added (.setpoint true) s0 = [] ∧
    (after (.setpoint false) (after (.setpoint true) s0)).point = false := by decide +kernel

/-! ### Bus Transport (section 2.1) -/

/-- T1, from the idle bus. -/
theorem test_start_events : added .start (after .stop s0) = [.clk .high, .dout .high, .dout .low, .clk .low] := by
  decide +kernel

/-- T2, after a WRITEBYTE. -/
theorem test_stop_events : added .stop (after (.writebyte 0xB0) s0) = [.clk .low, .dout .low, .clk .high, .dout .high] ∧
    (after .stop (after (.writebyte 0xB0) s0)).bus.pads = idlePads := by decide +kernel

/-- T3. -/
theorem test_writebyte_acknowledged : (added (.writebyte 0xB0) (s0With [.low])).take 24 =
    [.clk .low, .dout .low, .clk .high, .clk .low, .dout .low, .clk .high, .clk .low, .dout .low, .clk .high,
     .clk .low, .dout .low, .clk .high, .clk .low, .dout .high, .clk .high, .clk .low, .dout .high, .clk .high,
     .clk .low, .dout .low, .clk .high, .clk .low, .dout .high, .clk .high] ∧
    (added (.writebyte 0xB0) (s0With [.low])).drop 24 =
    [.clk .low, .doe false, .clk .high, .waitUs 50, .sample .low, .dout .low, .doe true, .waitUs 50, .dout .low,
     .doe true, .waitUs 50] ∧ (after (.writebyte 0xB0) (s0With [.low])).ret = .ack .low := by decide +kernel

/-- T4. -/
theorem test_writebyte_not_acknowledged : (added (.writebyte 0xB0) (s0With [.high])).drop 24 =
    [.clk .low, .doe false, .clk .high, .waitUs 50, .sample .high, .waitUs 50, .dout .low, .doe true, .waitUs 50] ∧
    (after (.writebyte 0xB0) (s0With [.high])).ret = .ack .high := by decide +kernel

/-- R134: an early pull adds no event, and the receiver hears the same bytes; 0xB0 has bit 7 set. -/
theorem test_early_pull : (added (.writeone 1 0x05) (s0Early 4)).length = 164 ∧
    (after (.writebyte 0xB0) (after .start (s0Early 1))).bus.rx.bytes = [0xB0] ∧
    (Bus.sendBits 8 (s0Early 1).bus).ackFall.pads.pull = true ∧
    (Bus.sendBits 8 ((s0Early 1).bus.loadShift 0xB0)).ackFall.pads.dioLine = .undef ∧
    (Bus.sendBits 8 ((s0Early 1).bus.loadShift 0x30)).ackFall.pads.dioLine = .driven .low := by decide +kernel

/-- T6. -/
theorem test_bitdelay_event : added .bitdelay s0 = [.waitUs 50] := by decide +kernel

/-! ### Segment encoder (section 2.2) -/

theorem test_encode_codes : ([0x00, 0x05, 0x0A, 0x0F, 0x10, 0x1F, 0x20, 0x2D, 0x30, 0x35, 0x39, 0x3A, 0x41, 0x42, 0x62,
      0x58, 0x7E, 0x7F, 0x80, 0xFF] : List Byte).map (encodeCode Config.vectorParams false) =
    [0x3F, 0x6D, 0x77, 0x71, 0x00, 0x00, 0x00, 0x40, 0x3F, 0x6D, 0x6F, 0x00, 0x77, 0x7C, 0x7C, 0x00, 0x00, 0x00, 0x00,
      0x00] := by decide +kernel
theorem test_encode_point : (after (.encode 0x7F) (after (.setpoint true) s0)).ret = .segment 0x80 ∧
    (after (.encode 0x37) s0).ret = .segment 0x07 ∧ added (.encode 0x37) s0 = [] := by decide +kernel

/-! ### Display operations (sections 2.3 and 2.4): what the receiver shows -/

/-- D-5, first row. -/
theorem test_writeall_shows : (after (.writeall 1 2 3 4) s0).bus.rx.ram = #v[0x06, 0x5B, 0x4F, 0x66] ∧
    (after (.writeall 1 2 3 4) s0).bus.rx.mode = .auto ∧ (after (.writeall 1 2 3 4) s0).bus.rx.dispBright = 2 ∧
    (added (.writeall 1 2 3 4) s0).length = 269 := by decide +kernel

/-- D-6. -/
theorem test_writeone_shows : (after (.writeone 3 0x35) s0).bus.rx.ram[3] = 0x6D ∧
    (added (.writeone 3 0x35) s0).length = 164 := by decide +kernel
theorem test_writeone_refuses : (after (.writeone 4 1) s0).marks.map (·.reason) = [.positionRange] ∧
    added (.writeone 255 1) s0 = [] := by decide +kernel

/-- D-7. -/
theorem test_clear_shows : (after .clear s0).bus.rx.ram = #v[0, 0, 0, 0] := by decide +kernel
theorem test_init_point : (after .init (after (.setpoint true) s0)).bus.rx.ram = #v[0x80, 0x80, 0x80, 0x80] := by
  decide +kernel

/-- R-1, the rows 3.14 and -2.5. -/
theorem test_dispnum_point : (after (.dispnum (.finite (314 / 100)) 2 true) s0).bus.rx.ram =
    #v[0x80, 0xCF, 0x86, 0xE6] := by decide +kernel
theorem test_dispnum_minus : (after (.dispnum (.finite (-5 / 2)) 0 true) s0).bus.rx.ram = #v[0x40, 0x00, 0x00, 0x4F] :=
  by decide +kernel

/-- R-1 and E12: magnitudes, in range and not; the second is the binary float nearest 9.995. -/
theorem test_magnitudes : magnitude 16 2 (.finite (9995 / 1000)) = some 1000 ∧
    magnitude 16 2 (numberOfBinary false 5626684784446013 (-49)) = some 999 ∧
    magnitude 16 2 (.finite (5 / 1000)) = some 1 ∧ magnitude 16 0 (.finite 32767) = some 32767 ∧
    magnitude 16 0 (.finite 32768) = none ∧ magnitude 16 2 (.finite (327675 / 1000)) = none ∧
    magnitude 16 0 .nan = none := by decide +kernel

/-- R-4, "AB" and a six-code text: windows -3 and 3. -/
theorem test_disptext_fits : (after (.disptext [0x41, 0x42] 500) s0).bus.rx.ram = #v[0x77, 0x7C, 0, 0] := by
  decide +kernel
theorem test_disptext_windows :
    (windowStarts 6).map (fun k => (List.range 4).map (slot [1, 2, 3, 4, 5, 6] k)) =
      ([[0x7F, 0x7F, 0x7F, 0x7F], [0x7F, 0x7F, 0x7F, 1], [0x7F, 0x7F, 1, 2], [0x7F, 1, 2, 3], [1, 2, 3, 4],
        [2, 3, 4, 5], [3, 4, 5, 6], [4, 5, 6, 0x7F], [5, 6, 0x7F, 0x7F], [6, 0x7F, 0x7F, 0x7F],
        [0x7F, 0x7F, 0x7F, 0x7F]] : List (List Byte)) := by decide +kernel

/-! ### Refusals (section 2.5) -/

theorem test_refusal_order : (stateOf (step { fresh .reference with host := [.op ⟨0x0A, []⟩] })).marks =
      [⟨.unknownOp, .op ⟨0x0A, []⟩⟩] ∧
    (after (.writeone 9 1) (fresh .reference)).marks.map (·.reason) = [.unconstructed] ∧
    (after (.dispnum (.finite (5 / 2)) 1 false) s0).marks.map (·.reason) = [.decimalPlaces] := by decide +kernel

/-- The codes of R109's table, in its order. -/
theorem test_refusal_codes : [Reason.unknownOp, .unconstructed, .alreadyConstructed, .samePin, .brightnessRange,
    .positionRange, .decimalPlaces].map Reason.code = [1, 2, 3, 4, 5, 6, 7] ∧
    (after (.writeone 4 1) s0).marks.map Mark.value = [(6, .op ⟨0x06, [.byte 4, .byte 1]⟩)] := by decide +kernel

/-! ### The reference receiver (section 2.6) -/

theorem test_receiver_auto : (afterFrames [[0x40], [0xC0, 1, 2, 3, 4], [0x8F]] s0).ram = #v[1, 2, 3, 4] ∧
    (afterFrames [[0x40], [0xC0, 1, 2, 3, 4], [0x8F]] s0).dispBright = 7 := by decide +kernel
theorem test_receiver_fixed : (afterFrames [[0x44], [0xC2, 0x5B, 0x06], [0x88]] s0).ram[2] = 0x06 ∧
    (afterFrames [[0x44], [0xC2, 0x5B, 0x06], [0x88]] s0).dispOn = true := by decide +kernel
theorem test_receiver_havocs : (afterFrames [[0x40], [0xC2, 1, 2, 3]] s0).draws = 2 ∧
    (afterFrames [[0x80]] s0).draws = 2 ∧ (afterFrames [[0x40, 0x44]] s0).draws = 2 ∧ (afterFrames [[]] s0).draws = 1 :=
  by decide +kernel

/-! ### The assembler (R60, R61) -/

theorem test_asm_pseudo : assembleLine "dispnum -7.5, true".toList = .ok (some (.dispnum (.finite (-15 / 2)) 0 true)) ∧
    assembleLine "configure 7 ; only the brightness".toList = .ok (some (.configure 7 none none)) := by decide +kernel
theorem test_asm_literals : assembleLine "writeall 'A', ',', blank, 0b101".toList =
      .ok (some (.writeall 0x41 0x2C 0x7F 5)) ∧
    assembleLine "disptext \"AB;\", 500".toList = .ok (some (.disptext [0x41, 0x42, 0x3B] 500)) ∧
    assembleLine "setpoint".toList = .error .operand := by decide +kernel

/-! ### Witnesses: a state and operands that meet the hypotheses of each statement, clause by clause -/

theorem ready_s0 : Ready s0 := ⟨by decide +kernel, by decide +kernel⟩
theorem idle_fresh : State.reset.seq = .idle ∧ State.reset.constructed = false := by decide
theorem settled_s0 : Settled s0.bus := ⟨.inl (by decide +kernel), by decide +kernel, by decide +kernel⟩

/-- A block fresh from CONSTRUCT is on a settled bus, too, whatever its unwritten lines read as. -/
theorem settled_fresh : Settled (built .reference).bus := by
  have h : (built .reference).bus.rx = Receiver.powerOn :=
    show (Receiver.powerOn.hear Config.openClk Config.openDio).hear Config.openClk Config.openDio = _ by
      rw [show Receiver.powerOn.hear Config.openClk Config.openDio = _ from hear_seen _]
      exact hear_seen _
  refine ⟨.inr ⟨by decide +kernel, ?_⟩, ?_, ?_⟩ <;> rw [h] <;> rfl

/-- CONSTRUCT: constructed; unconstructed with equal pins; with two pins, on the lines of R38, heard. -/
theorem witness_ConstructBindsPinsOnce : (s0.seq = .idle ∧ s0.constructed = true) ∧
    (State.reset.seq = .idle ∧ State.reset.constructed = false ∧ (⟨7⟩ : PinId) = ⟨7⟩ ∧ (⟨2⟩ : PinId) ≠ ⟨3⟩) ∧
    State.reset.bus.pads = freshPads ∧ Heard State.reset.bus := by
  refine ⟨by decide +kernel, by decide, by decide, rfl, rfl⟩

/-- CONFIGURE: brightness 7 and 8, and an unconstructed block. -/
theorem witness_ConfigureStoresOrRefuses : Ready s0 ∧ (7 : Byte) ≤ 7 ∧ (8 : Byte) > 7 ∧ State.reset.seq = .idle ∧
    State.reset.constructed = false := ⟨ready_s0, by decide, by decide, rfl, rfl⟩

/-- A ready block and an unconstructed one: SetpointStoresPoint, EncodeResolvesInOrder, StartDrivesStartCondition,
StopDrivesStopCondition, WritebyteSendsBitsThenSamples, PullLastsUntilFallingEdge, WriteallSendsThreeFrames,
ClearBlanksFourPositions, InitIsClear. -/
theorem witness_Ready : Ready s0 ∧ State.reset.seq = .idle ∧ State.reset.constructed = false := ⟨ready_s0, rfl, rfl⟩

/-- A ready block whose lines are heard and not contended. -/
theorem witness_BitdelayWaitsOnce : Ready s0 ∧ Heard s0.bus ∧ s0.bus.pads.contends = false :=
  ⟨ready_s0, settled_s0.2, by decide +kernel⟩

/-- The outputs of S0; an early and a late acknowledgement, the reference's, and none; bit 7 set and clear. -/
theorem witness_EarlyAcknowledgePullContends : (s0.bus.pads.clkOE = true ∧ s0.bus.pads.dioOE = true) ∧
    (s0Early 1).bus.answers = .oracle (⟨.low, true⟩ :: []) ∧ (0xB0 : Byte).getLsbD 7 = true ∧
    (0x30 : Byte).getLsbD 7 = false ∧ s0.bus.answers = .reference ∧
    (s0With [.low]).bus.answers = .oracle (⟨.low, false⟩ :: []) ∧ (s0With [.high]).bus.nextAnswer = .high := by
  decide +kernel

/-- The clauses of the DIO line: driven without a pull, driven LOW under a pull, contended, released both ways. -/
theorem witness_DioLineLevel : (idlePads.dioOE = true ∧ idlePads.pull = false) ∧
    ((bytePads true).dioOE = true ∧ (bytePads true).dioO ≠ .driven .high) ∧
    ({ idlePads with pull := true }.dioOE = true ∧ { idlePads with pull := true }.pull = true ∧
      { idlePads with pull := true }.dioO = .driven .high) ∧
    { idlePads with dioOE := false, pull := true }.dioOE = false ∧ { idlePads with dioOE := false }.pull = false := by
  decide

/-- The silent operations, and a refusal that changes the marks. -/
theorem witness_ConfigurationWritesAreSilent : (∃ t, exec (.configure 7 none none) s0 = .next t) ∧
    (∃ t, exec (.setpoint true) s0 = .next t) ∧ (∃ t, exec (.encode 5) s0 = .next t) ∧
    ∃ t, exec .start State.reset = .next t ∧ t.marks ≠ State.reset.marks := by
  refine ⟨⟨_, exec_configure ready_s0 _ _ _ (by decide)⟩, ⟨_, exec_setpoint ready_s0 _⟩, ⟨_, exec_encode ready_s0 _⟩, _, rfl, ?_⟩
  decide +kernel

/-- START writes no configuration, DISPNUM is not among the writers of DCTRL, and CONFIGURE not among those of POINT. -/
theorem witness_OnlyTheNamedOperationsWriteConfiguration :
    ((∃ t, exec (.dispnum (.finite 5) 2 false) s0 = .next t) ∧
      (∀ clk dio, Instr.dispnum (.finite 5) 2 false ≠ .construct clk dio) ∧
      ∀ b d a, Instr.dispnum (.finite 5) 2 false ≠ .configure b d a) ∧
    ((∃ t, exec (.configure 7 none none) s0 = .next t) ∧
      (∀ clk dio, Instr.configure 7 none none ≠ .construct clk dio) ∧
      (∀ on, Instr.configure 7 none none ≠ .setpoint on) ∧
      ∀ v dp minus, Instr.configure 7 none none ≠ .dispnum v dp minus) := by
  refine ⟨⟨⟨_, exec_dispnum ready_s0 _ _ _ (by decide)⟩, ?_, ?_⟩, ⟨_, exec_configure ready_s0 _ _ _ (by decide)⟩, ?_, ?_, ?_⟩ <;>
    intros <;> simp

/-- The code ranges and the unrecognized code of the character table. -/
theorem witness_CharacterTableIsAdmitted : ((0x10 : Byte) ≤ 0x10 ∧ (0x10 : Byte) ≤ 0x1F) ∧ (0x80 : Byte) ≤ 0xFF ∧
    ∀ e ∈ Config.vectorParams.charGlyphs, e.1 ≠ glyphKey 0x3A :=
  ⟨by decide, by decide, by simp [Config.vectorParams, Config.charRef, glyphKey]⟩

/-- WRITEONE: positions 3 and 4. -/
theorem witness_WriteoneSendsThreeFrames : Ready s0 ∧ (3 : Byte) ≤ 3 ∧ (4 : Byte) > 3 ∧ State.reset.seq = .idle ∧
    State.reset.constructed = false := ⟨ready_s0, by decide, by decide, rfl, rfl⟩

/-- DISPNUM: decimal places 0, 2 and 1. -/
theorem witness_DispnumRendersNumber : Ready s0 ∧ ((0 : Byte) = 0 ∨ (0 : Byte) = 2) ∧ ((2 : Byte) = 0 ∨ (2 : Byte) = 2) ∧
    ((1 : Byte) ≠ 0 ∧ (1 : Byte) ≠ 2) ∧ State.reset.seq = .idle ∧ State.reset.constructed = false :=
  ⟨ready_s0, by decide, by decide, by decide, rfl, rfl⟩

/-- DisptextFitsInOneWrite and DisptextScrollsWindows: a text of four codes fits, one of five scrolls. -/
theorem witness_Disptext : Ready s0 ∧ ([1, 2, 3, 4] : List Byte).length ≤ 4 ∧
    4 < ([0x48, 0x45, 0x4C, 0x4C, 0x4F] : List Byte).length := ⟨ready_s0, by decide, by decide⟩

/-- The counted operations answer next states. -/
theorem witness_EventAndWaitCounts : Ready s0 ∧ (∃ t, exec (.writebyte 0xB0) s0 = .next t) ∧ (3 : Byte) ≤ 3 ∧
    (∃ t, exec (.writeone 3 5) s0 = .next t) ∧ ∃ t, exec (.writeall 1 2 3 4) s0 = .next t :=
  ⟨ready_s0, ⟨_, exec_writebyte ready_s0 _⟩, by decide, ⟨_, exec_writeone ready_s0 _ _ (by decide)⟩,
    ⟨_, exec_writeall ready_s0 _ _ _ _⟩⟩
theorem witness_RenderingWaitCounts : Ready s0 ∧ (∃ t, exec .clear s0 = .next t) ∧
    (((2 : Byte) = 0 ∨ (2 : Byte) = 2) ∧ ∃ t, exec (.dispnum .nan 2 true) s0 = .next t) ∧
    ∃ t, exec (.disptext [1] 5) s0 = .next t :=
  ⟨ready_s0, ⟨_, exec_clear ready_s0⟩, ⟨by decide, ⟨_, exec_dispnum ready_s0 _ _ _ (by decide)⟩⟩,
    ⟨_, exec_disptext ready_s0 _ _⟩⟩

/-- Each display operation, well-formed, on a ready block whose clock pin is an output. -/
theorem witness_DisplayOperationsEndIdle : Ready s0 ∧ s0.bus.pads.clkOE = true ∧ [Instr.init, .writeall 1 2 3 4,
    .writeone 3 5, .clear, .dispnum .nan 2 true, .disptext [] 0].all Instr.wellFormed = true :=
  ⟨ready_s0, by decide +kernel, by decide⟩

/-- The address frame: FIXED mode; one payload byte; AUTO mode up to position 3, and one byte further. -/
theorem witness_WireAddrWritesPositions : (after .wireDataFixed s0).bus.rx.mode = .fixed ∧
    ([0x3F] : List Byte).length ≤ 1 ∧ (after .wireDataAuto s0).bus.rx.mode = .auto ∧
    (2 : BitVec 2).toNat + ([1, 2] : List Byte).length ≤ 4 ∧ 4 < (2 : BitVec 2).toNat + ([1, 2, 3] : List Byte).length := by
  decide +kernel

/-- Foreign frames: an unknown command and an overlong one; and an empty frame. -/
theorem witness_ForeignFrameHavocsReceiver :
    ({ s0 with host := [.frame [0x80]] } : State).host = .frame ((0x80 : Byte) :: []) :: [] ∧
    ¬ ((0xC0 : Byte) ≤ 0x80 ∧ (0x80 : Byte) ≤ 0xC3) ∧ ((0x80 : Byte) ≠ 0x40 ∧ (0x80 : Byte) ≠ 0x44 ∧
      ¬ ((0x88 : Byte) ≤ 0x80 ∧ (0x80 : Byte) ≤ 0x8F)) ∧
    ¬ ((0xC0 : Byte) ≤ 0x40 ∧ (0x40 : Byte) ≤ 0xC3) ∧ ([0x44] : List Byte) ≠ [] ∧
    ({ s0 with host := [.frame []] } : State).host = .frame [] :: [] :=
  ⟨rfl, by decide, by decide, by decide, by decide, rfl⟩

/-- A byte in an open frame: after START, and after another byte, acknowledged and not. -/
theorem witness_UnacknowledgedByteRestartsFrame :
    (Ready (after .start s0) ∧ (after .start s0).bus.pads = openPads ∧ Heard (after .start s0).bus ∧
      (after .start s0).bus.rx.inFrame = true ∧ (after .start s0).bus.rx.bits = []) ∧
    (after (.writebyte 5) (after .start s0)).bus.pads = bytePads true ∧
    (after .start s0).bus.nextAnswer = .low ∧ (after .start (s0With [.high])).bus.nextAnswer = .high := by
  refine ⟨⟨⟨?_, ?_⟩, ?_, ⟨?_, ?_⟩, ?_, ?_⟩, ?_, ?_, ?_⟩ <;> decide +kernel

/-- WriteallIsShown, WriteoneIsShown and DispnumIsShown: a ready block on a settled bus, the reference receiver's answers, a value in range. -/
theorem witness_IsShown : Ready s0 ∧ Settled s0.bus ∧ s0.acmd = 0xC0 ∧ (3 : Byte) ≤ 3 ∧
    s0.dctrl.extractLsb' 3 5 = 0b10001#5 ∧ (∀ a ∈ upcoming 7 s0.bus, a = .low) ∧ (∀ a ∈ upcoming 4 s0.bus, a = .low) ∧
    (∀ a ∈ upcoming 16 s0.bus, a = .low) ∧ scaledMagnitude (314 / 100) 2 ≤ 2 ^ (s0.params.hostIntBits - 1) - 1 :=
  ⟨ready_s0, settled_s0, by decide +kernel, by decide, by decide +kernel, by decide +kernel, by decide +kernel,
    by decide +kernel, by decide +kernel⟩

/-- The value is in range as the rule writes it, too. -/
theorem witness_DispnumIsShown : rounded 5 0 ≤ 2 ^ (s0.params.hostIntBits - 1) - 1 := by
  have h : s0.params.hostIntBits = 16 := by decide +kernel
  have h₂ : rounded 5 0 = 5 := by
    have h₃ : |(5 : Rat)| * 10 ^ (0 : Byte).toNat + 1 / 2 = 11 / 2 := by
      show |(5 : Rat)| * 10 ^ 0 + 1 / 2 = 11 / 2
      norm_num
    rw [rounded, h₃, Nat.floor_eq_iff (by positivity)]
    norm_num
  rw [h, h₂]
  norm_num

/-- Refusals: an unknown opcode at each end of its ranges; an unconstructed block; a constructed one; ill-formed
operands on the block that checks them. -/
theorem witness_RefusalsInOrder : (s0.seq = .idle ∧ (0x00 : Byte) = 0x00 ∧ ((0x0A : Byte) ≤ 0x0A ∧ (0x0F : Byte) ≤ 0x0F) ∧
      (0x15 : Byte) ≤ 0x15) ∧
    (State.reset.seq = .idle ∧ Instr.isHostOp .start = true ∧ State.reset.constructed = false ∧
      ∀ clk dio, Instr.start ≠ .construct clk dio) ∧ s0.constructed = true ∧
    ((Instr.configure 8 none none).wellFormed = false ∧ ((∃ clk dio, Instr.configure 8 none none = .construct clk dio) ↔
      s0.constructed = false)) ∧
    ((Instr.construct ⟨7⟩ ⟨7⟩).wellFormed = false ∧ ((∃ clk dio, Instr.construct ⟨7⟩ ⟨7⟩ = .construct clk dio) ↔
      State.reset.constructed = false)) := by
  have h : s0.constructed = true := by decide +kernel
  exact ⟨by decide +kernel, ⟨rfl, rfl, rfl, by simp⟩, h, ⟨rfl, by simp [h]⟩,
    ⟨rfl, by simp [show State.reset.constructed = false from rfl]⟩⟩

/-- Refusals with a code: an idle block for each, constructed or not, operands out of range, and a step to a next state. -/
theorem witness_RefusalsRecordCodeAndOperation : (s0.seq = .idle ∧ s0.constructed = true) ∧
    (State.reset.seq = .idle ∧ State.reset.constructed = false) ∧
    (({ s0 with host := [.op ⟨0x0A, []⟩] } : State).host = .op ⟨0x0A, []⟩ :: [] ∧ (0x0A : Byte) ≤ 0x0A ∧
      (0x0A : Byte) ≤ 0x0F) ∧ (Instr.stop.isHostOp = true ∧ ∀ clk dio, Instr.stop ≠ .construct clk dio) ∧
    (8 : Byte) > 7 ∧ (4 : Byte) > 3 ∧ ((1 : Byte) ≠ 0 ∧ (1 : Byte) ≠ 2) ∧ ∃ t, step s0 = .next t :=
  ⟨⟨by decide +kernel, by decide +kernel⟩, ⟨rfl, rfl⟩, ⟨rfl, by decide, by decide⟩, ⟨rfl, by simp⟩, by decide, by decide,
    by decide, next_of (by decide +kernel)⟩

/-- An admitted operation that is none of CONSTRUCT. -/
theorem witness_AdmittedOperationsAreNotRefused : Ready s0 ∧ (Instr.writebyte 0xFF).isHostOp = true ∧
    (Instr.writebyte 0xFF).wellFormed = true ∧ ∀ clk dio, Instr.writebyte 0xFF ≠ .construct clk dio :=
  ⟨ready_s0, rfl, rfl, by simp⟩

/-- A block in the middle of an operation. -/
theorem witness_OverlappingOperationFaults : ({ s0 with seq := .busy .clear } : State).seq = .busy .clear ∧
    (Instr.start).isHostOp = true := ⟨rfl, rfl⟩

theorem witness_IdleMachineAlwaysSteps : s0.seq = .idle := by decide +kernel

/-- Something that decodes. -/
theorem witness_EncodeOfDecode : decode (.frame [0xC2, 0x5B]) = .ok (.wireAddr 2 [0x5B]) := by decide

/-- An instruction stands first, and an empty host. -/
theorem witness_StepRunsDecodedInstruction : ({ s0 with host := [.op ⟨0x10, []⟩] } : State).host =
    .op ⟨0x10, []⟩ :: [] ∧ decode (.op ⟨0x10, []⟩) = .ok .start ∧ s0.host = [] := ⟨rfl, by decide, by decide +kernel⟩

/-- A state of the invariant that steps: S0, with a WRITEBYTE presented; also for MarksAndTraceOnlyGrow and
BindingsAndTablesAreImmutable. -/
theorem witness_StepKeepsInvariant : MachineInv s0 ∧ ∃ t, step { s0 with host := [.op ⟨0x12, [.byte 5]⟩] } = .next t := by
  have h : s0.constructed = true := by decide +kernel
  refine ⟨⟨by decide +kernel, by decide +kernel, by decide +kernel, settled_s0.2, .inr (.inl (by decide +kernel)),
    fun _ => by decide +kernel, fun hc => ?_⟩, next_of (by decide +kernel)⟩
  rw [h] at hc
  cases hc

end Sys2Proof.Tests
end

section
/-!
The block does not read the reference receiver (R3, R120): each change of the bus and of the state, made with
another receiver listening, ends in the same bus and the same state but for the receiver.
-/

namespace Sys2Proof.Machine

open Sys2Proof.Safety

/-! ### Another receiver on the bus -/

/-- Every field but `rx` of the bus after a WRITEBYTE has a closed form that does not name `rx` (R76). -/
theorem Bus.writeByte_receiver (us : Nat) (v : Byte) (rx : Receiver) (b : Bus) :
    Bus.writeByte us v { b with rx := rx } =
      { b.writeByte us v with rx := (Bus.writeByte us v { b with rx := rx }).rx } := by
  have hn : ({ b with rx := rx } : Bus).nextAnswer = b.nextAnswer := Bus.nextAnswer_congr rfl rfl
  obtain ⟨ans, draws⟩ := Bus.writeByte_answersUsed us v b
  obtain ⟨ans', draws'⟩ := Bus.writeByte_answersUsed us v { b with rx := rx }
  obtain ⟨same, same'⟩ : AnswersUsed 1 b (afterAnswers 1 { b with rx := rx }) := afterAnswers_congr 1 rfl rfl
  apply Bus.eq_of_fields
  case hp => simp only [Bus.writeByte_pads, hn]
  case hs => simp only [Bus.writeByte_shift]
  case hb => simp only [Bus.writeByte_bitcnt]
  case ha => simp only [Bus.writeByte_ack, hn]
  case ht => simp only [Bus.writeByte_trace, hn]
  case hn => exact ans'.trans (same.trans ans.symm)
  case hd => exact draws'.trans (same'.trans draws.symm)
  case hr => rfl

@[simp] theorem withReceiver_seq (rx : Receiver) (s : State) : (withReceiver rx s).seq = s.seq := rfl
@[simp] theorem withReceiver_constructed (rx : Receiver) (s : State) :
    (withReceiver rx s).constructed = s.constructed := rfl

/-! ### Work that ignores the receiver -/

/-- With another receiver on the bus, `f` answers the same state but for the receiver. -/
def State.IgnoresReceiver (f : State → State) : Prop :=
  ∀ (rx : Receiver) (s : State), ∃ rx', f (withReceiver rx s) = withReceiver rx' (f s)

namespace State.IgnoresReceiver

theorem id : State.IgnoresReceiver fun s => s := fun rx _ => ⟨rx, rfl⟩

theorem comp {f g : State → State} (hg : State.IgnoresReceiver g) (hf : State.IgnoresReceiver f) :
    State.IgnoresReceiver fun s => g (f s) := by
  intro rx s
  obtain ⟨rx₁, h₁⟩ := hf rx s
  obtain ⟨rx₂, h₂⟩ := hg rx₁ (f s)
  exact ⟨rx₂, (congrArg g h₁).trans h₂⟩

theorem emit (e : Event) : State.IgnoresReceiver (State.onBus (Bus.emit e)) := fun _ _ => ⟨_, rfl⟩

theorem start : State.IgnoresReceiver (State.onBus Bus.start) := fun _ _ => ⟨_, rfl⟩

theorem stop : State.IgnoresReceiver (State.onBus Bus.stop) := fun _ _ => ⟨_, rfl⟩

theorem writeByte (us : Nat) (v : Byte) : State.IgnoresReceiver (State.onBus (Bus.writeByte us v)) :=
  fun rx s => ⟨_, congrArg (fun b => { s with bus := b }) (Bus.writeByte_receiver us v rx s.bus)⟩

theorem writeBytes (us : Nat) (vs : List Byte) : State.IgnoresReceiver (State.onBus (Bus.writeBytes us vs)) := by
  induction vs with
  | nil => exact id
  | cons v vs ih => exact ih.comp (writeByte us v)

theorem busFrames (us : Nat) (fs : List (List Byte)) :
    State.IgnoresReceiver (State.onBus (Bus.sendFrames us fs)) := by
  induction fs with
  | nil => exact id
  | cons f fs ih => exact ih.comp (stop.comp ((writeBytes us f).comp start))

theorem setConfig (b : Byte) (dcmd acmd : Option Byte) : State.IgnoresReceiver (State.setConfig b dcmd acmd) :=
  fun rx _ => ⟨rx, rfl⟩

theorem setPoint (on : Bool) : State.IgnoresReceiver (State.setPoint on) := fun rx _ => ⟨rx, rfl⟩

theorem sendFrames (fs : List (List Byte)) : State.IgnoresReceiver (State.sendFrames fs) :=
  fun rx s => busFrames s.params.bitDelayUs fs rx s

theorem writeOne (pos d : Byte) : State.IgnoresReceiver (State.writeOne pos d) :=
  fun rx s => sendFrames (oneFrames s.dctrl pos (s.encodeCode d)) rx s

theorem writeAll (d0 d1 d2 d3 : Byte) : State.IgnoresReceiver (State.writeAll d0 d1 d2 d3) :=
  fun rx s => sendFrames
    (allFrames s.dctrl s.acmd [s.encodeCode d0, s.encodeCode d1, s.encodeCode d2, s.encodeCode d3]) rx
    (s.loadSegbuf d0 d1 d2 d3)

theorem clearAll : State.IgnoresReceiver State.clearAll :=
  (writeOne 3 _).comp ((writeOne 2 _).comp ((writeOne 1 _).comp (writeOne 0 _)))

theorem renderDigits (ps : List Byte) (m : Nat) : State.IgnoresReceiver (State.renderDigits ps m) := by
  induction ps generalizing m with
  | nil => exact id
  | cons p ps ih => exact (ih (m / 10)).comp (writeOne p (digitCode m))

theorem writeDraw (pos : Byte) : State.IgnoresReceiver (State.writeDraw pos) := by
  intro rx s
  obtain ⟨rx', h⟩ := sendFrames (oneFrames s.dctrl pos (Config.freeByte s.byteDraws)) rx s
  exact ⟨rx', congrArg (fun t => { t with byteDraws := s.byteDraws + 1 }) h⟩

theorem renderDraws (ps : List Byte) : State.IgnoresReceiver (State.renderDraws ps) := by
  induction ps with
  | nil => exact id
  | cons p ps ih => exact ih.comp (writeDraw p)

theorem renderNumber (ps : List Byte) (m : Option Nat) : State.IgnoresReceiver (State.renderNumber ps m) := by
  cases m with
  | some m => exact renderDigits ps m
  | none => exact renderDraws ps

theorem renderMinus (neg : Bool) : State.IgnoresReceiver (State.renderMinus neg) := by
  cases neg with
  | true => exact writeOne 0 Config.minusCode
  | false => exact id

/-- The range check of DISPNUM reads the parameters, which no receiver changes (R99). -/
theorem renderValue (value : Number) (dp : Byte) (minus : Bool) :
    State.IgnoresReceiver (State.renderValue value dp minus) :=
  fun rx s => ((renderMinus _).comp
    ((renderNumber _ (magnitude s.params.hostIntBits dp value)).comp (setPoint (pointOfPlaces dp)))) rx s

theorem scrollWindow (text : List Byte) (ms : Nat) (k : Int) :
    State.IgnoresReceiver fun s => State.scrollWindow text ms s k := by
  unfold State.scrollWindow
  split
  · exact (writeAll _ _ _ _).comp (emit (.waitMs ms))
  · exact writeAll _ _ _ _

theorem scroll (text : List Byte) (ms : Nat) (ks : List Int) :
    State.IgnoresReceiver (ks.foldl (State.scrollWindow text ms)) := by
  induction ks with
  | nil => exact id
  | cons k ks ih => exact ih.comp (scrollWindow text ms k)

theorem renderText (text : List Byte) (ms : Nat) : State.IgnoresReceiver (State.renderText text ms) := by
  unfold State.renderText
  split
  · exact writeAll _ _ _ _
  · exact scroll text ms _

end State.IgnoresReceiver

/-! ### The outcome -/

/-- Admission reads the sequencer, the construction mark and the operands only (R110, R112). -/
theorem accept_withReceiver (i : Instr) (check : Option Reason) {body : State → State} {result : State → Ret}
    (hb : State.IgnoresReceiver body) (s : State) (rx rx₀ : Receiver)
    (hr : ∀ rx s, result (withReceiver rx s) = result s := by intros; rfl) :
    mapNext (withReceiver rx₀) ((withReceiver rx s).accept i check body result) =
      mapNext (withReceiver rx₀) (s.accept i check body result) := by
  obtain ⟨rx', h⟩ := hb rx (s.begin i)
  have hbody : body ((withReceiver rx s).begin i) = withReceiver rx' (body (s.begin i)) := h
  simp only [State.accept, State.ifIdle, withReceiver_seq, withReceiver_constructed, hbody, hr]
  split
  · split
    · split <;> rfl
    · rfl
  · rfl

/-- CONSTRUCT reads the sequencer, the construction mark and its pins only (R90, R112). -/
theorem execConstruct_withReceiver (clk dio : PinId) (s : State) (rx rx₀ : Receiver) :
    mapNext (withReceiver rx₀) (execConstruct clk dio (withReceiver rx s)) =
      mapNext (withReceiver rx₀) (execConstruct clk dio s) := by
  simp only [execConstruct, State.ifIdle, withReceiver_seq, withReceiver_constructed]
  cases s.seq with
  | busy op => rfl
  | idle =>
    by_cases hc : s.constructed = true
    · simp only [hc, if_true]; rfl
    · by_cases hp : clk = dio
      · simp only [hc, hp, if_true]; rfl
      · simp only [hc, hp, if_false]; rfl

/-- Settles O36: each host operation's work and result ignore the receiver. A wire command need not: it acts on the
receiver alone, which the comparison leaves out. -/
theorem blockDoesNotReadReceiver : Obligations.BlockDoesNotReadReceiver := by
  intro i s rx rx₀
  cases i with
  | construct clk dio => exact execConstruct_withReceiver clk dio s rx rx₀
  | init => exact accept_withReceiver .init none .clearAll s rx rx₀
  | configure b dcmd acmd => exact accept_withReceiver (.configure b dcmd acmd) _ (.setConfig b dcmd acmd) s rx rx₀
  | setpoint on => exact accept_withReceiver (.setpoint on) none (.setPoint on) s rx rx₀
  | writeall d0 d1 d2 d3 => exact accept_withReceiver (.writeall d0 d1 d2 d3) none (.writeAll d0 d1 d2 d3) s rx rx₀
  | writeone pos d => exact accept_withReceiver (.writeone pos d) _ (.writeOne pos d) s rx rx₀
  | clear => exact accept_withReceiver .clear none .clearAll s rx rx₀
  | dispnum value dp minus => exact accept_withReceiver (.dispnum ..) _ (.renderValue value dp minus) s rx rx₀
  | disptext text ms => exact accept_withReceiver (.disptext text ms) none (.renderText text ms) s rx rx₀
  | start => exact accept_withReceiver .start none .start s rx rx₀
  | stop => exact accept_withReceiver .stop none .stop s rx rx₀
  | writebyte v =>
    exact accept_withReceiver (.writebyte v) none (.writeByte s.params.bitDelayUs v) s rx rx₀
      (result := fun t => .ack t.bus.ack)
  | bitdelay => exact accept_withReceiver .bitdelay none (.emit (.waitUs s.params.bitDelayUs)) s rx rx₀
  | encode c =>
    exact accept_withReceiver (.encode c) none .id s rx rx₀ (result := fun t => .segment (t.encodeCode c))
  | wireDataAuto => rfl
  | wireDataFixed => rfl
  | wireAddr p payload => rfl
  | wireDispctrl b => rfl

end Sys2Proof.Machine
end

section
/-!
Statements about the whole state: the line the pads give DIO, the step as decode and exec, what an instruction's work
leaves alone, the idle bus after a display operation, and the invariant of the machine.
-/

namespace Sys2Proof.Machine

open Sys2Proof.Safety

/-! ### The DIO line (R16) -/

/-- Settles O16, by the three branches of the line: contention, drive, release. -/
theorem dioLineLevel : Obligations.DioLineLevel := by
  intro p
  refine ⟨fun hd hp => ?driven, fun hd hp ho => ?contended, fun hd hp => ?pulled, fun hd hp => ?released⟩
  case driven =>
    have hc : p.contends = false := by
      rcases hp with hp | ho
      · simp [Pads.contends, hp]
      · simp [Pads.contends, ho]
    simp [Pads.dioLine, hc, hd]
  case contended => simp [Pads.dioLine, Pads.contends, hd, hp, ho]
  case pulled => simp [Pads.dioLine, Pads.contends, Pads.released, hd, hp]
  case released => simp [Pads.dioLine, Pads.contends, Pads.released, hd, hp]

/-! ### The step (R18) -/

/-- Settles O44: the step is the fetch, then the decoder, then `exec`. -/
theorem stepRunsDecodedInstruction : Obligations.StepRunsDecodedInstruction := by
  refine ⟨fun s p rest i hh hd => ?_, fun s hh => ?_⟩
  · have hf : s.fetch = some (p, { s with host := rest }) := by simp only [State.fetch, hh]
    simp only [step, hf, runPresented, hd]
  · have hf : s.fetch = none := by simp only [State.fetch, hh]
    simp only [step, hf]

/-! ### What the work of an instruction leaves alone -/

/-- `s'` is `s` with the configuration registers the instruction writes before it reaches the bus (R92, R93, R102). -/
def Configured (i : Instr) (s s' : State) : Prop :=
  s' = s ∨ (∃ b d a, i = .configure b d a ∧ s' = s.setConfig b d a) ∨
    (∃ on, i = .setpoint on ∧ s' = s.setPoint on) ∨
    ∃ v dp m, i = .dispnum v dp m ∧ s' = s.setPoint (pointOfPlaces dp)

section Work

variable {i : Instr} {s s' : State}

/-- Work other than CONSTRUCT writes configuration registers, then works on the bus, whose trace only grows. -/
theorem work_configured (hn : ∀ clk dio, i ≠ .construct clk dio) (s : State) :
    ∃ s', Configured i s s' ∧ Kept (fun b => s.bus.trace <+: b.trace) s' (work i s) := by
  cases hi : i.isHostOp with
  | true => exact work_kept (closed_trace s.bus.trace) hi hn s
  | false =>
    obtain ⟨f, hf⟩ := work_wire hi s
    exact ⟨s, .inl rfl, by rw [hf]; exact ⟨rfl, id⟩⟩

theorem Configured.frame (h : Configured i s s') :
    s' = { s with dctrl := s'.dctrl, dcmd := s'.dcmd, acmd := s'.acmd, point := s'.point } := by
  rcases h with rfl | ⟨b, d, a, -, rfl⟩ | ⟨on, -, rfl⟩ | ⟨v, dp, m, -, rfl⟩ <;> rfl

theorem Configured.bus (h : Configured i s s') : s'.bus = s.bus := by rw [h.frame]

/-- Only CONFIGURE writes DCTRL, DCMD and ACMD here (R20, R21, R22). -/
theorem Configured.commands (h : Configured i s s') (hn : ∀ b d a, i ≠ .configure b d a) :
    s'.dctrl = s.dctrl ∧ s'.dcmd = s.dcmd ∧ s'.acmd = s.acmd := by
  rcases h with rfl | ⟨b, d, a, hi, -⟩ | ⟨on, -, rfl⟩ | ⟨v, dp, m, -, rfl⟩
  · exact ⟨rfl, rfl, rfl⟩
  · exact absurd hi (hn b d a)
  · exact ⟨rfl, rfl, rfl⟩
  · exact ⟨rfl, rfl, rfl⟩

/-- Only SETPOINT and DISPNUM write POINT here (R23). -/
theorem Configured.point (h : Configured i s s') (hs : ∀ on, i ≠ .setpoint on) (hd : ∀ v dp m, i ≠ .dispnum v dp m) :
    s'.point = s.point := by
  rcases h with rfl | ⟨b, d, a, -, rfl⟩ | ⟨on, hi, -⟩ | ⟨v, dp, m, hi, -⟩
  · rfl
  · rfl
  · exact absurd hi (hs on)
  · exact absurd hi (hd v dp m)

/-- Work other than CONSTRUCT writes configuration registers, SEGBUF, the bus and the draw counter only. -/
theorem work_frame (hn : ∀ clk dio, i ≠ .construct clk dio) (s : State) :
    work i s = { s with
      dctrl := (work i s).dctrl
      dcmd := (work i s).dcmd
      acmd := (work i s).acmd
      point := (work i s).point
      segbuf := (work i s).segbuf
      bus := (work i s).bus
      byteDraws := (work i s).byteDraws } := by
  obtain ⟨s', hs', hk, -⟩ := work_configured hn s
  rw [hk, hs'.frame]

theorem construct_or_ne (i : Instr) :
    (∃ clk dio, i = .construct clk dio) ∨ ∀ clk dio, i ≠ .construct clk dio := by
  simpa only [not_exists] using em (∃ clk dio, i = .construct clk dio)

/-- No work adds a refusal mark (R109). -/
theorem work_marks (i : Instr) (s : State) : (work i s).marks = s.marks := by
  rcases construct_or_ne i with ⟨clk, dio, rfl⟩ | hn
  · rfl
  · rw [work_frame hn s]

/-- No work writes a parameter or a table (R34). -/
theorem work_params (i : Instr) (s : State) : (work i s).params = s.params := by
  rcases construct_or_ne i with ⟨clk, dio, rfl⟩ | hn
  · rfl
  · rw [work_frame hn s]

/-- No work takes an event back (R35). -/
theorem work_trace (i : Instr) (s : State) : s.bus.trace <+: (work i s).bus.trace := by
  rcases construct_or_ne i with ⟨clk, dio, rfl⟩ | hn
  · exact ⟨[.coe true, .doe true], by simp [work, State.bindPins]⟩
  · obtain ⟨s', hs', -, hk⟩ := work_configured hn s
    exact hk (by rw [hs'.bus])

/-- A host operation other than CONSTRUCT runs on a ready block only (R18, R110). -/
theorem Runs.ready (h : Runs i s) (hi : i.isHostOp = true) (hn : ∀ clk dio, i ≠ .construct clk dio) : Ready s := by
  obtain ⟨hs, hc⟩ := h.2 hi
  refine ⟨hs, ?_⟩
  by_contra hf
  obtain ⟨clk, dio, rfl⟩ := hc.1 (by simpa using hf)
  exact hn clk dio rfl

/-- On a constructed block CONSTRUCT does not run (R90, R112). -/
theorem Runs.ne_construct (h : Runs i s) (hc : s.constructed = true) (clk dio : PinId) : i ≠ .construct clk dio := by
  rintro rfl
  have := (h.2 rfl).2.2 ⟨clk, dio, rfl⟩
  simp [hc] at this

end Work

/-- Settles O5: a refusal leaves a mark and nothing else, a completed operation leaves none, and the three operations
write registers only. -/
theorem configurationWritesAreSilent : Obligations.ConfigurationWritesAreSilent := by
  intro i s t hx hi
  rcases exec_cases hx with ⟨-, r, rfl⟩ | ⟨-, r, rfl⟩
  · rfl
  · rcases hi with ⟨b, d, a, rfl⟩ | ⟨on, rfl⟩ | ⟨c, rfl⟩ | hm
    · rfl
    · rfl
    · rfl
    · exact absurd (work_marks i s) hm

/-- Settles O6: a refusal writes no register, and work writes only those of `Configured`. -/
theorem onlyTheNamedOperationsWriteConfiguration : Obligations.OnlyTheNamedOperationsWriteConfiguration := by
  intro i s t hx
  rcases exec_cases hx with ⟨-, r, rfl⟩ | ⟨-, r, rfl⟩
  · exact ⟨fun _ _ => ⟨rfl, rfl, rfl⟩, fun _ _ _ => rfl⟩
  · refine ⟨fun hn hc => ?_, fun hn hs hd => ?_⟩
    · obtain ⟨s', hs', hk, -⟩ := work_configured hn s
      rw [hk]
      exact hs'.commands hc
    · obtain ⟨s', hs', hk, -⟩ := work_configured hn s
      rw [hk]
      exact hs'.point hs hd

/-- Settles O47, by what the step can have been: a refusal adds one mark, work adds events, the rest neither. -/
theorem marksAndTraceOnlyGrow : Obligations.MarksAndTraceOnlyGrow := by
  intro s t h
  have same : (∃ ms, s.marks = s.marks ++ ms ∧ ms.length ≤ 1) ∧ ∃ es, s.bus.trace = s.bus.trace ++ es :=
    ⟨⟨[], by simp⟩, [], by simp⟩
  have marked (m : Mark) : (∃ ms, s.marks ++ [m] = s.marks ++ ms ∧ ms.length ≤ 1) ∧
      ∃ es, s.bus.trace = s.bus.trace ++ es := ⟨⟨[m], rfl, by simp⟩, [], by simp⟩
  rcases step_cases h with ⟨-, rfl⟩ | ⟨p, rest, -, ⟨i, -, hx⟩ | ⟨-, rfl⟩ | rfl | rfl⟩
  · exact same
  · rcases exec_cases hx with ⟨-, r, rfl⟩ | ⟨-, r, rfl⟩
    · exact marked _
    · obtain ⟨es, he⟩ := work_trace i { s with host := rest }
      exact ⟨⟨[], by simp [work_marks], by simp⟩, es, he.symm⟩
  · exact marked _
  · exact same
  · exact same

/-- Settles O48: no work writes the parameters, and on a constructed block only work that binds no pins runs. -/
theorem bindingsAndTablesAreImmutable : Obligations.BindingsAndTablesAreImmutable := by
  intro s t h
  rcases step_cases h with ⟨-, rfl⟩ | ⟨p, rest, -, ⟨i, -, hx⟩ | ⟨-, rfl⟩ | rfl | rfl⟩
  · exact ⟨rfl, fun hc => ⟨hc, rfl, rfl⟩⟩
  · rcases exec_cases hx with ⟨-, r, rfl⟩ | ⟨hr, r, rfl⟩
    · exact ⟨rfl, fun hc => ⟨hc, rfl, rfl⟩⟩
    · refine ⟨work_params i { s with host := rest }, fun hc => ?_⟩
      rw [work_frame (hr.ne_construct hc) { s with host := rest }]
      exact ⟨hc, rfl, rfl⟩
  · exact ⟨rfl, fun hc => ⟨hc, rfl, rfl⟩⟩
  · exact ⟨rfl, fun hc => ⟨hc, rfl, rfl⟩⟩
  · exact ⟨rfl, fun hc => ⟨hc, rfl, rfl⟩⟩

/-! ### The idle bus after a display operation (R39) -/

section Idle

variable {s : State}

/-- Frames end with a STOP, which leaves the idle bus, where the clock pin is an output (R39, R74). -/
theorem State.sendFrames_idle {fs : List (List Byte)} (hf : fs ≠ []) (h : ∀ f ∈ fs, f ≠ [])
    (hc : s.bus.pads.clkOE = true) : (s.sendFrames fs).bus.pads = idlePads := by
  have hp := Bus.sendFrames_pads s.params.bitDelayUs fs s.bus hf h
  rw [hc] at hp
  exact hp

/-- One WRITEONE-shaped write for each entry of a list that is not empty (R95). -/
theorem State.sendOnes_idle {α : Type} {xs : List α} (hx : xs ≠ []) (dctrl : Byte) (pos seg : α → Byte)
    (hc : s.bus.pads.clkOE = true) :
    (s.sendFrames (xs.flatMap fun x => oneFrames dctrl (pos x) (seg x))).bus.pads = idlePads := by
  obtain ⟨x, xs, rfl⟩ := List.exists_cons_of_ne_nil hx
  refine State.sendFrames_idle (by simp [oneFrames]) (fun f hf => ?_) hc
  obtain ⟨y, -, hy⟩ := List.mem_flatMap.1 hf
  simp only [oneFrames, List.mem_cons, List.not_mem_nil, or_false] at hy
  rcases hy with rfl | rfl | rfl <;> simp

theorem State.writeOne_idle (pos d : Byte) (hc : s.bus.pads.clkOE = true) :
    (s.writeOne pos d).bus.pads = idlePads := by
  rw [State.writeOne_sends]
  exact State.sendFrames_idle (by simp [oneFrames]) (by simp [oneFrames]) hc

theorem State.writeAll_idle (d0 d1 d2 d3 : Byte) (hc : s.bus.pads.clkOE = true) :
    (s.writeAll d0 d1 d2 d3).bus.pads = idlePads :=
  State.sendFrames_idle (s := s.loadSegbuf d0 d1 d2 d3) (by simp) (by simp) hc

theorem State.clearAll_idle (hc : s.bus.pads.clkOE = true) : s.clearAll.bus.pads = idlePads := by
  rw [State.clearAll_sends]
  exact State.sendOnes_idle (by simp) _ _ _ hc

theorem State.renderNumber_idle {ps : List Byte} (hp : ps ≠ []) (m : Option Nat) (hc : s.bus.pads.clkOE = true) :
    (s.renderNumber ps m).bus.pads = idlePads := by
  have hz : ps.zipIdx ≠ [] := by simpa using hp
  cases m with
  | some m =>
    rw [State.renderNumber, State.renderDigits_sends]
    exact State.sendOnes_idle hz _ _ _ hc
  | none =>
    rw [State.renderNumber, State.renderDraws_sends]
    exact State.sendOnes_idle hz _ _ _ hc

/-- DISPNUM writes at least three numeral positions, then perhaps the minus glyph (R101). -/
theorem State.renderValue_idle (value : Number) (dp : Byte) (minus : Bool) (hc : s.bus.pads.clkOE = true) :
    (s.renderValue value dp minus).bus.pads = idlePads := by
  have hp (neg : Bool) : numeralPositions neg ≠ [] := by cases neg <;> simp [numeralPositions]
  have hn : ((s.setPoint (pointOfPlaces dp)).renderNumber (numeralPositions (minus && isNegative value))
      (magnitude s.params.hostIntBits dp value)).bus.pads = idlePads := State.renderNumber_idle (hp _) _ hc
  unfold State.renderValue State.renderMinus
  split
  · exact State.writeOne_idle _ _ (by rw [hn]; rfl)
  · exact hn

theorem State.scrollWindow_idle (text : List Byte) (ms : Nat) (k : Int) (hc : s.bus.pads.clkOE = true) :
    (State.scrollWindow text ms s k).bus.pads = idlePads := by
  unfold State.scrollWindow
  split <;> exact State.writeAll_idle _ _ _ _ hc

/-- A scroll of at least one window ends with that window's write (R106). -/
theorem State.scroll_idle (text : List Byte) (ms : Nat) {ks : List Int} (hk : ks ≠ [])
    (hc : s.bus.pads.clkOE = true) : (ks.foldl (State.scrollWindow text ms) s).bus.pads = idlePads := by
  induction ks generalizing s with
  | nil => exact absurd rfl hk
  | cons k ks ih =>
    have hw := State.scrollWindow_idle text ms k hc
    rw [List.foldl_cons]
    by_cases hks : ks = []
    · subst hks
      exact hw
    · exact ih hks (by rw [hw]; rfl)

theorem State.renderText_idle (text : List Byte) (ms : Nat) (hc : s.bus.pads.clkOE = true) :
    (s.renderText text ms).bus.pads = idlePads := by
  unfold State.renderText
  split
  · exact State.writeAll_idle _ _ _ _ hc
  · exact State.scroll_idle text ms (by simp [windowStarts]) hc

end Idle

/-- Settles O26: an admitted display operation runs, and its work ends with a write. -/
theorem displayOperationsEndIdle : Obligations.DisplayOperationsEndIdle := by
  intro i s hr hw hc hi
  have runs (hn : ∀ clk dio, i ≠ .construct clk dio) (hp : (work i s).bus.pads = idlePads) :
      ∃ t, exec i s = .next t ∧ t.bus.pads = idlePads := by
    obtain ⟨r, hx⟩ := exec_of_runs (i := i) (s := s) ⟨hw, fun _ => ⟨hr.1, by simp [hr.2, hn]⟩⟩
    exact ⟨_, hx, hp⟩
  rcases hi with rfl | ⟨d0, d1, d2, d3, rfl⟩ | ⟨pos, d, rfl⟩ | rfl | ⟨v, dp, m, rfl⟩ | ⟨text, ms, rfl⟩
  · exact runs (by simp) (State.clearAll_idle hc)
  · exact runs (by simp) (State.writeAll_idle d0 d1 d2 d3 hc)
  · exact runs (by simp) (State.writeOne_idle pos d hc)
  · exact runs (by simp) (State.clearAll_idle hc)
  · exact runs (by simp) (State.renderValue_idle v dp m hc)
  · exact runs (by simp) (State.renderText_idle text ms hc)

end Sys2Proof.Machine

namespace Sys2Proof.Safety

open Sys2Proof.Machine

/-! ### Pads at rest (R39) -/

section AtRest

variable {p : Pads} {b : Bus}

/-- At rest both pins are outputs, a pull stands against CLK HIGH only, and nothing contends. -/
theorem AtRest.levels (h : AtRest p) :
    p.clkOE = true ∧ p.dioOE = true ∧ (p.pull && !(p.clkO == .driven .high)) = false ∧ p.contends = false := by
  rcases h with rfl | rfl | rfl | ⟨pull, rfl⟩
  · decide
  · decide
  · decide
  · cases pull <;> decide

theorem AtRest.start_pads (h : AtRest b.pads) : b.start.pads = openPads := by
  obtain ⟨hc, hd, -, -⟩ := h.levels
  simp only [Bus.start_pads, openPads, hc, hd]

theorem AtRest.stop_pads (h : AtRest b.pads) : b.stop.pads = idlePads := by
  obtain ⟨hc, hd, hp, -⟩ := h.levels
  simp only [Bus.stop_pads, idlePads, hc, hd, hp]

theorem AtRest.writeByte_pads (h : AtRest b.pads) (us : Nat) (v : Byte) :
    (b.writeByte us v).pads = bytePads (b.nextAnswer = .low) := by
  obtain ⟨hc, -, -, -⟩ := h.levels
  simp only [Bus.writeByte_pads, bytePads, hc]

/-- Every operation but CONSTRUCT leaves pads at rest where they were at rest (R39). -/
theorem work_atRest {i : Instr} {s : State} (hn : ∀ clk dio, i ≠ .construct clk dio) (h : AtRest s.bus.pads) :
    AtRest (work i s).bus.pads := by
  have hc : s.bus.pads.clkOE = true := h.levels.1
  have idle {q : Pads} (hq : q = idlePads) : AtRest q := .inr (.inl hq)
  cases i with
  | construct clk dio => exact absurd rfl (hn clk dio)
  | init => exact idle (State.clearAll_idle hc)
  | configure b d a => exact h
  | setpoint on => exact h
  | writeall d0 d1 d2 d3 => exact idle (State.writeAll_idle d0 d1 d2 d3 hc)
  | writeone pos d => exact idle (State.writeOne_idle pos d hc)
  | clear => exact idle (State.clearAll_idle hc)
  | dispnum v dp m => exact idle (State.renderValue_idle v dp m hc)
  | disptext text ms => exact idle (State.renderText_idle text ms hc)
  | start => exact .inr (.inr (.inl h.start_pads))
  | stop => exact idle h.stop_pads
  | writebyte v => exact .inr (.inr (.inr ⟨_, h.writeByte_pads _ v⟩))
  | bitdelay => exact h
  | encode c => exact h
  | wireDataAuto => exact h
  | wireDataFixed => exact h
  | wireAddr pos payload => exact h
  | wireDispctrl b => exact h

end AtRest

/-! ### The listening receiver (R121) -/

/-- The receiver holds at most a byte of levels and has heard the lines, if DIO is not contended: a contended level
is heard as a free value, which need not be the level `Heard` names (entry 7). -/
def Listening (b : Bus) : Prop := b.rx.bits.length ≤ 8 ∧ (b.pads.contends = false → Heard b)

/-- An event on lines that are not contended is heard. -/
theorem drive_heard (e : Event) {p : Pads} (b : Bus) (hp : p.contends = false) : Heard (b.drive e p) := by
  refine ⟨rfl, ?_⟩
  show (if p.contends then Config.contentionLevel b.trace.length else p.dioHeard) = p.dioHeard
  simp [hp]

theorem closed_listening : Bus.Closed Listening where
  drive e p b h := ⟨closed_collects.drive e p b h.1, drive_heard e b⟩
  take b h := by simpa [Listening, Heard] using h
  shift _ _ _ h := h
  ack _ _ h := h

/-- `f` does not touch what the receiver has heard of the lines and of the open frame. -/
def KeepsLine (f : Receiver → Receiver) : Prop :=
  ∀ rx, f rx = (f rx).withLine rx.inFrame rx.bits rx.bytes rx.seenClk rx.seenDio

theorem setMode_keepsLine (m : RxMode) : KeepsLine (Receiver.setMode m) := fun _ => rfl
theorem setBright_keepsLine (b : BitVec 3) : KeepsLine (Receiver.setBright b) := fun _ => rfl
theorem havoc_keepsLine : KeepsLine Receiver.havoc := fun _ => rfl
theorem store_keepsLine (addr : Nat) (ss : List Byte) : KeepsLine (Receiver.store addr ss) :=
  fun rx => store_withLine addr ss rx _ _ _ _ _

/-! ### The invariant of the machine -/

/-- `DCTRL[7:3]` of a display-control command within the brightness range (R20). -/
theorem displayControl_field {b : Byte} (hb : b ≤ 7) : (displayControl b).extractLsb' 3 5 = 0b10001#5 := by
  have hn : b.toNat ≤ 7 := hb
  have hv : ((displayControl b).extractLsb' 3 5).toNat = (136 + b.toNat) % 256 / 8 % 32 := by
    simp [displayControl, Nat.shiftRight_eq_div_pow]
  apply BitVec.eq_of_toNat_eq
  rw [hv, BitVec.toNat_ofNat]
  omega

section Invariant

variable {i : Instr} {s t : State}

/-- The invariant does not read the host port, the returned value and the marks. -/
theorem MachineInv.report (h : MachineInv s) (host : List Presented) (ret : Ret) (marks : List Mark) :
    MachineInv { s with host := host, ret := ret, marks := marks } :=
  ⟨h.idle, h.control, h.collecting, h.heard, h.rest, h.pins, h.silent⟩

theorem MachineInv.listening (h : MachineInv s) : Listening s.bus := ⟨h.collecting, fun _ => h.heard⟩

theorem MachineInv.onReceiver (h : MachineInv s) {f : Receiver → Receiver} (hf : KeepsLine f) :
    MachineInv (s.onReceiver f) := by
  have hx := hf s.bus.rx
  refine ⟨h.idle, h.control, ?_, ⟨?_, ?_⟩, h.rest, h.pins, h.silent⟩
  · exact (congrArg (fun rx => rx.bits.length ≤ 8) hx).mpr h.collecting
  · exact (congrArg Receiver.seenClk hx).trans h.heard.1
  · exact (congrArg Receiver.seenDio hx).trans h.heard.2

theorem MachineInv.setPoint (h : MachineInv s) (on : Bool) : MachineInv (s.setPoint on) :=
  ⟨h.idle, h.control, h.collecting, h.heard, h.rest, h.pins, h.silent⟩

theorem MachineInv.setConfig (h : MachineInv s) {b : Byte} (hb : b ≤ 7) (d a : Option Byte) :
    MachineInv (s.setConfig b d a) :=
  ⟨h.idle, displayControl_field hb, h.collecting, h.heard, h.rest, h.pins, h.silent⟩

/-- Work on the bus of a constructed block that ends at rest keeps the invariant. -/
theorem MachineInv.of_kept (h : MachineInv s) (hc : s.constructed = true) (hk : Kept Listening s t)
    (hr : AtRest t.bus.pads) : MachineInv t := by
  obtain ⟨ht, hl⟩ := hk
  obtain ⟨hbits, hheard⟩ := hl h.listening
  have hct : t.constructed = true := (congrArg State.constructed ht).trans hc
  refine ⟨(congrArg State.seq ht).trans h.idle, ?_, hbits, hheard hr.levels.2.2.2, hr, fun _ => ?_, fun hf => ?_⟩
  · rw [ht]; exact h.control
  · rw [ht]; exact h.pins hc
  · rw [hct] at hf; cases hf

/-- CONSTRUCT on the lines of R38 leaves them as they are, and binds two pins (R90). -/
theorem MachineInv.bindPins (h : MachineInv s) (hc : s.constructed = false) {clk dio : PinId} (hd : clk ≠ dio) :
    MachineInv (s.bindPins clk dio) := by
  obtain ⟨hp, -⟩ := h.silent hc
  have hb : (s.bindPins clk dio).bus = (s.bus.emit (.coe true)).emit (.doe true) := by
    have hu : { s.bus with pads := { s.bus.pads with clkO := .undef, dioO := .undef } } = s.bus := by
      rw [show ({ s.bus.pads with clkO := .undef, dioO := .undef } : Pads) = s.bus.pads by rw [hp]; rfl]
    simp only [State.bindPins, hu]
  have hq : (s.bindPins clk dio).bus.pads = freshPads := by
    rw [hb]
    simp [hp, freshPads]
  have hr : AtRest (s.bindPins clk dio).bus.pads := .inl hq
  have hl : Listening (s.bindPins clk dio).bus := by
    rw [hb]
    exact closed_listening.emit _ (closed_listening.emit _ h.listening)
  have hbright : s.params.defaultBrightness.setWidth 8 ≤ (7 : Byte) := by bv_omega
  exact ⟨h.idle, displayControl_field hbright, hl.1, hl.2 hr.levels.2.2.2, hr, fun _ => hd, fun hf => by cases hf⟩

/-- The registers an admitted operation writes keep the invariant: CONFIGURE's brightness is at most 7 (R92). -/
theorem MachineInv.configured {s' : State} (h : MachineInv s) (hw : i.wellFormed = true) (hs : Configured i s s') :
    MachineInv s' := by
  rcases hs with rfl | ⟨b, d, a, rfl, rfl⟩ | ⟨on, -, rfl⟩ | ⟨v, dp, m, -, rfl⟩
  · exact h
  · exact h.setConfig (by simpa [Instr.wellFormed] using hw) d a
  · exact h.setPoint on
  · exact h.setPoint _

/-- A wire command acts on what the receiver shows, not on what it hears (entry 18). -/
theorem MachineInv.after_wire (h : MachineInv s) (hi : i.isHostOp = false) : MachineInv (work i s) := by
  cases i with
  | wireDataAuto => exact h.onReceiver (setMode_keepsLine .auto)
  | wireDataFixed => exact h.onReceiver (setMode_keepsLine .fixed)
  | wireAddr p payload => exact h.onReceiver (store_keepsLine p.toNat payload)
  | wireDispctrl b => exact h.onReceiver (setBright_keepsLine b)
  | _ => cases hi

theorem MachineInv.after_work (h : MachineInv s) (hr : Runs i s) : MachineInv (work i s) := by
  rcases construct_or_ne i with ⟨clk, dio, rfl⟩ | hn
  · exact h.bindPins ((hr.2 rfl).2.2 ⟨clk, dio, rfl⟩) (by simpa [Instr.wellFormed] using hr.1)
  · cases hi : i.isHostOp with
    | false => exact h.after_wire hi
    | true =>
      obtain ⟨s', hs', hk⟩ := work_kept closed_listening hi hn s
      have hc : s'.constructed = true := by
        rw [Configured.frame hs']
        exact (hr.ready hi hn).2
      exact (h.configured hr.1 hs').of_kept hc hk (work_atRest hn h.rest)

theorem MachineInv.after_exec (h : MachineInv s) (hx : exec i s = .next t) : MachineInv t := by
  rcases exec_cases hx with ⟨-, r, rfl⟩ | ⟨hr, r, rfl⟩
  · exact h.report _ _ _
  · exact (h.after_work hr).report _ _ _

end Invariant

/-- Settles O46: what is run keeps the invariant, and a refusal, an empty frame and a foreign frame do, too. -/
theorem stepKeepsInvariant : Obligations.StepKeepsInvariant := by
  intro s t h hs
  rcases step_cases hs with ⟨-, rfl⟩ | ⟨p, rest, -, ⟨i, -, hx⟩ | ⟨-, rfl⟩ | rfl | rfl⟩
  · exact h
  · exact (h.report rest s.ret s.marks).after_exec hx
  · exact h.report rest s.ret _
  · exact h.report rest s.ret s.marks
  · exact (h.report rest s.ret s.marks).onReceiver havoc_keepsLine

end Sys2Proof.Safety
end

section
/-!
The decoder and the encoder are inverse to each other (R57 to R59 on the host port, R64 to R66 on the wire): the fields of
the wire's command bytes, what an accepted opcode byte or frame can have been, and the two directions.
-/

namespace Sys2Proof.Laws

/-! ### The command bytes of the wire -/

theorem wireAddrByte_command : ∀ p : BitVec 2, wireAddrByte p &&& 0xFC = 0xC0 := by decide
theorem wireAddrByte_position : ∀ p : BitVec 2, (wireAddrByte p).extractLsb' 0 2 = p := by decide

/-- A byte with the six command bits of R65 is the address command of the position in its two low bits. -/
theorem wireAddrByte_of_command : ∀ c : Byte, c &&& 0xFC = 0xC0 → wireAddrByte (c.extractLsb' 0 2) = c := by
  decide +kernel

theorem wireDispctrlByte_command : ∀ b : BitVec 3, wireDispctrlByte b &&& 0xF8 = 0x88 := by decide
theorem wireDispctrlByte_brightness : ∀ b : BitVec 3, (wireDispctrlByte b).extractLsb' 0 3 = b := by decide

/-- A byte with the five command bits of R66 is the display control of the brightness in its three low bits. -/
theorem wireDispctrlByte_of_command : ∀ c : Byte, c &&& 0xF8 = 0x88 → wireDispctrlByte (c.extractLsb' 0 3) = c := by
  decide +kernel

/-- No display-control byte is a command that the decoder looks for before it. -/
theorem wireDispctrlByte_other : ∀ b : BitVec 3, ¬ wireDispctrlByte b &&& 0xFC = 0xC0 ∧
    wireDispctrlByte b ≠ wireDataAutoByte ∧ wireDispctrlByte b ≠ wireDataFixedByte := by decide

/-! ### Decoding what is encoded -/

theorem decodeFrame_wireAddrByte (p : BitVec 2) (payload : List Byte) :
    decodeFrame (wireAddrByte p :: payload) = .ok (.wireAddr p payload) := by
  simp only [decodeFrame, wireAddrByte_command, wireAddrByte_position, if_true]

theorem decodeFrame_wireDispctrlByte (b : BitVec 3) : decodeFrame [wireDispctrlByte b] = .ok (.wireDispctrl b) := by
  obtain ⟨haddr, hauto, hfixed⟩ := wireDispctrlByte_other b
  simp only [decodeFrame, haddr, hauto, hfixed, wireDispctrlByte_command, wireDispctrlByte_brightness, ne_eq,
    not_true, if_false, if_true]

/-- Settles O41. Every presentation but two is spelt with a fixed first byte, and the decoder computes on it; the
position of WIRE_ADDR and the brightness of WIRE_DISPCTRL are read back from the command byte. -/
theorem decodeOfEncode : Obligations.DecodeOfEncode := by
  intro i
  cases i with
  | wireAddr p payload => exact decodeFrame_wireAddrByte p payload
  | wireDispctrl b => exact decodeFrame_wireDispctrlByte b
  | _ => rfl

/-! ### Encoding what is decoded -/

/-- The frames that decode: an address command with its payload, or one of the three commands of one byte. -/
theorem encode_of_decodeFrame {bytes : List Byte} {i : Instr} (h : decodeFrame bytes = .ok i) :
    encode i = .frame bytes := by
  cases bytes with
  | nil => cases h
  | cons c payload =>
    simp only [decodeFrame] at h
    split_ifs at h with haddr hpay hauto hfixed hctrl <;> cases h
    · rw [encode, wireAddrByte_of_command c haddr]
    all_goals obtain rfl := not_not.mp hpay
    · rw [encode, hauto]
    · rw [encode, hfixed]
    · rw [encode, wireDispctrlByte_of_command c hctrl]

/-- One row of `decodeOp`: where the opcode byte is the row's, what the row's shape accepts decides, else the rows below. -/
theorem encode_of_opcodeRow {op k : Byte} {args : List Operand} {row below : Except DecodeError Instr} {i : Instr}
    (hrow : row = .ok i → encode i = .op ⟨k, args⟩) (hbelow : below = .ok i → encode i = .op ⟨op, args⟩)
    (h : (if op = k then row else below) = .ok i) : encode i = .op ⟨op, args⟩ := by
  split_ifs at h with hop
  · rw [hop]
    exact hrow h
  · exact hbelow h

/-- The host operations that decode: row by row of R58, the operands of the shape accepted there. -/
theorem encode_of_decodeOp {o : HostOp} {i : Instr} : decodeOp o = .ok i → encode i = .op o := by
  obtain ⟨op, args⟩ := o
  unfold decodeOp
  iterate 14
    refine encode_of_opcodeRow ?_ ?_
    · dsimp only
      split <;> rintro ⟨⟩
      rfl
  rintro ⟨⟩

/-- Settles O42, port by port. -/
theorem encodeOfDecode : Obligations.EncodeOfDecode := by
  intro p i h
  cases p with
  | op o => exact encode_of_decodeOp h
  | frame bytes => exact encode_of_decodeFrame h

/-! ### The spec's own words -/

/-- Settles O43. Nine of the words are what an instruction presents; the other two start with no opcode and no command. -/
theorem specWordsDecode : Obligations.SpecWordsDecode :=
  ⟨decodeOfEncode (.construct ⟨2⟩ ⟨3⟩), decodeOfEncode (.writeone 3 0x35),
    decodeOfEncode (.disptext [0x41, 0x42] 500), decodeOfEncode (.writebyte 0xB0), decodeOfEncode (.encode 0x7F),
    decodeOfEncode .wireDataAuto, decodeOfEncode .wireDataFixed, decodeOfEncode (.wireAddr 2 [0x5B]),
    decodeOfEncode (.wireDispctrl 7), rfl, rfl⟩

end Sys2Proof.Laws
end

section
/-!
The host-port operations START, STOP and WRITEBYTE (40_bus_transport.md): what each does to the bus, in closed form, and
the statements that give their events and final pads.
-/

namespace Sys2Proof.Machine

open Sys2Proof.Safety

/-! ### The events of a byte, as R76 writes them -/

/-- DIO carries the data bit: HIGH for 1, LOW for 0 (R10). -/
theorem bitEvents_eq_ite (v : Byte) :
    bitEvents v = fun i => [.clk .low, .dout (if v.getLsbD i then .high else .low), .clk .high] := by
  funext i
  cases h : v.getLsbD i <;> simp [bitEvents, Level.ofBit, h]

/-- The drive is reasserted only when the byte is acknowledged (R76, R78). -/
theorem reassertEvents_eq_ite (a : Level) : reassertEvents a = if a = .low then [.dout .low, .doe true] else [] := by
  cases a <;> rfl

/-! ### Everything an operation does to the bus, but for what the receiver hears -/

theorem Bus.start_eq (b : Bus) : b.start = { b with
    trace := b.trace ++ startEvents
    pads := { b.pads with clkO := .driven .low, dioO := .driven .low, pull := false }
    rx := b.start.rx } :=
  Bus.eq_of_fields b.start_pads rfl rfl rfl b.start_trace rfl rfl rfl

theorem Bus.stop_eq (b : Bus) : b.stop = { b with
    trace := b.trace ++ stopEvents
    pads := { b.pads with
      clkO := .driven .high, dioO := .driven .high, pull := b.pads.pull && !(b.pads.clkO == .driven .high) }
    rx := b.stop.rx } :=
  Bus.eq_of_fields b.stop_pads rfl rfl rfl b.stop_trace rfl rfl rfl

/-- A byte uses one answer, samples it into ACK and leaves SHIFT empty (R28 to R30, R36, R76). -/
theorem Bus.writeByte_eq (us : Nat) (v : Byte) (b : Bus) : b.writeByte us v = { b.takeAnswer with
    shift := 0
    bitcnt := 8
    ack := b.nextAnswer
    trace := b.trace ++ byteEvents us v b.nextAnswer
    pads := { b.pads with clkO := .driven .high, dioOE := true, dioO := .driven .low, pull := b.nextAnswer = .low }
    rx := (b.writeByte us v).rx } := by
  obtain ⟨hanswers, hdraws⟩ := Bus.writeByte_answersUsed us v b
  exact Bus.eq_of_fields (Bus.writeByte_pads us v b) (Bus.writeByte_shift us v b) (Bus.writeByte_bitcnt us v b)
    (Bus.writeByte_ack us v b) (Bus.writeByte_trace us v b) hanswers hdraws rfl

/-! ### The operations on the host port -/

/-- Every host operation but CONSTRUCT is refused before construction, whatever its operands (R110, R112). -/
theorem exec_unconstructed {i : Instr} {s : State} (hi : i.isHostOp = true) (hn : ∀ clk dio, i ≠ .construct clk dio)
    (hs : s.seq = .idle) (hc : s.constructed = false) : exec i s = refusedWith s .unconstructed (encode i) := by
  cases i with
  | construct clk dio => exact absurd rfl (hn clk dio)
  | wireDataAuto | wireDataFixed | wireAddr | wireDispctrl => cases hi
  | _ =>
    simp only [exec, execInit, execConfigure, execSetpoint, execWriteall, execWriteone, execClear, execDispnum,
      execDisptext, execStart, execStop, execWritebyte, execBitdelay, execEncode, accept_unconstructed hs hc]

/-- Settles O13: on a ready block the work is one byte on the bus, whose events are those of R76. -/
theorem writebyteSendsBitsThenSamples : Obligations.WritebyteSendsBitsThenSamples := by
  refine fun s v => ⟨rfl, fun hr => ⟨(s.bus.writeByte s.params.bitDelayUs v).rx, s.bus.nextAnswer = .low, ?_⟩,
    exec_unconstructed rfl (by simp)⟩
  rw [exec_writebyte hr, State.onBus, Bus.writeByte_eq]
  simp only [byteEvents, ackEvents, bitEvents_eq_ite, reassertEvents_eq_ite, List.append_assoc]

/-- Settles O11: on a ready block the work is START on the bus. -/
theorem startDrivesStartCondition : Obligations.StartDrivesStartCondition := by
  refine fun s => ⟨rfl, fun hr => ⟨s.bus.start.rx, false, ?_⟩, exec_unconstructed rfl (by simp)⟩
  rw [exec_start hr, State.onBus, Bus.start_eq, startEvents]

/-- Settles O12: on a ready block the work is STOP on the bus. -/
theorem stopDrivesStopCondition : Obligations.StopDrivesStopCondition := by
  refine fun s => ⟨rfl, fun hr =>
    ⟨s.bus.stop.rx, s.bus.pads.pull && !(s.bus.pads.clkO == .driven .high), ?_⟩, exec_unconstructed rfl (by simp)⟩
  rw [exec_stop hr, State.onBus, Bus.stop_eq, stopEvents]

end Sys2Proof.Machine
end

section
/-!
The segment encoder (41_segment_encoder.md): the point bit, the bits of the tables, the resolution order row by row, and
the statements about an encoded byte and about ENCODE.
-/

namespace Sys2Proof.Machine

open Sys2Proof.Safety

/-! ### The point bit (R82) -/

section PointBit

variable (point : Bool) (s : Byte)

theorem withPoint_eq_or : withPoint point s = s ||| (if point then 0x80 else 0) := by
  cases point <;> simp [withPoint]

theorem withPoint_bit7 (h : s.getLsbD 7 = false) : (withPoint point s).getLsbD 7 = point := by
  cases point
  · exact h
  · simp [withPoint]

theorem withPoint_setWidth : (withPoint point s).setWidth 7 = s.setWidth 7 := by
  cases point
  · rfl
  · show (s ||| 0x80).setWidth 7 = _
    rw [BitVec.setWidth_or]
    exact BitVec.or_zero

theorem withPoint_lowBit {i : Nat} (h : i < 7) : (withPoint point s).getLsbD i = s.getLsbD i := by
  simpa [h] using congrArg (BitVec.getLsbD · i) (withPoint_setWidth point s)

end PointBit

section Tables

variable (p : Config.Params) (point : Bool) (c : Byte)

/-! ### The bits of the tables (R83, R84) -/

theorem numeral_bit7 : (numeral p c).getLsbD 7 = false := by simp [numeral]

theorem charTable_bit7 : (charTable p c).getLsbD 7 = false := by
  unfold charTable
  split <;> simp

theorem numeral_setWidth (k : Fin 16) : (numeral p (BitVec.ofNat 8 k)).setWidth 7 = p.numeralTable[k] := by
  have hk : k.val % 256 = k.val := Nat.mod_eq_of_lt (by omega)
  simp [numeral, hk]

/-! ### The resolution order (R80, R81) -/

theorem resolve_blank : resolve p Config.blankCode = 0 := rfl

theorem resolve_integer {c : Byte} (h : c ≤ 15) : resolve p c = numeral p c := by
  have hb : c ≠ Config.blankCode := by rintro rfl; exact absurd h (by decide)
  simp only [resolve, hb, h, if_false, if_true]

/-- A digit character reads the entry of its integer. -/
theorem resolve_digit {c : Byte} (h : 0x30 ≤ c ∧ c ≤ 0x39) : resolve p c = numeral p (c - 0x30) := by
  have hb : c ≠ Config.blankCode := by rintro rfl; exact absurd h (by decide)
  have hi : ¬ c ≤ 15 := by bv_omega
  simp only [resolve, hb, hi, h, if_false, if_true, and_self]

/-- No row of the resolution sets bit 7: it is left to the point flag. -/
theorem resolve_bit7 : (resolve p c).getLsbD 7 = false := by
  unfold resolve
  split_ifs
  · rfl
  · exact numeral_bit7 p c
  · exact numeral_bit7 p (c - 0x30)
  · exact charTable_bit7 p c

/-! ### The encoded byte -/

theorem encodeCode_integer (k : Fin 16) :
    (encodeCode p point (BitVec.ofNat 8 k)).setWidth 7 = p.numeralTable[k] := by
  have hk : BitVec.ofNat 8 k ≤ 15 := by revert k; decide
  rw [encodeCode, withPoint_setWidth, resolve_integer p hk, numeral_setWidth]

theorem encodeCode_digit (k : Fin 10) :
    encodeCode p point (BitVec.ofNat 8 (0x30 + k)) = encodeCode p point (BitVec.ofNat 8 k) := by
  obtain ⟨hdigit, hint, hsub⟩ : (0x30 ≤ BitVec.ofNat 8 (0x30 + k) ∧ BitVec.ofNat 8 (0x30 + k) ≤ 0x39) ∧
      BitVec.ofNat 8 k ≤ 15 ∧ BitVec.ofNat 8 (0x30 + k) - 0x30 = BitVec.ofNat 8 k := by
    revert k
    decide
  rw [encodeCode, encodeCode, resolve_digit p hdigit, resolve_integer p hint, hsub]

theorem encodeCode_blank : encodeCode p point Config.blankCode = if point then 0x80 else 0x00 := by
  rw [encodeCode, resolve_blank, withPoint_eq_or]
  exact BitVec.zero_or

end Tables

/-- Settles O8: the tables leave bit 7 to the point flag, and the flag leaves the other bits to the tables. -/
theorem encodedByteProperties : Obligations.EncodedByteProperties := fun p point c =>
  ⟨withPoint_eq_or point (resolve p c), withPoint_bit7 point _ (resolve_bit7 p c),
    fun _ hi => withPoint_lowBit point (resolve p c) hi, encodeCode_integer p point, encodeCode_digit p point,
    encodeCode_blank p point⟩

/-- Settles O7: the returned byte is the resolved one with the point bit ORed in. -/
theorem encodeResolvesInOrder : Obligations.EncodeResolvesInOrder := by
  refine fun s c => ⟨rfl, fun hr => ?_, exec_unconstructed rfl (by simp)⟩
  rw [exec_encode hr, State.encodeCode, encodeCode, withPoint_eq_or, resolve]

end Sys2Proof.Machine
end

section
/-!
The display controller (42_display_controller.md): the configuration writes, the three-frame writes in closed form, and
the statements about CONFIGURE, SETPOINT, WRITEALL, WRITEONE, CLEAR and INIT.
-/

namespace Sys2Proof.Machine

open Sys2Proof.Safety

/-! ### Refusal by the operand check (R109, R112) -/

theorem exec_configure_brightness {s : State} (h : Ready s) {b : Byte} (dcmd acmd : Option Byte) (hb : b > 7) :
    exec (.configure b dcmd acmd) s = refusedWith s .brightnessRange (encode (.configure b dcmd acmd)) := by
  simp only [exec, execConfigure, hb, if_true, accept_check h]

theorem exec_writeone_position {s : State} (h : Ready s) {pos : Byte} (d : Byte) (hp : pos > 3) :
    exec (.writeone pos d) s = refusedWith s .positionRange (encode (.writeone pos d)) := by
  simp only [exec, execWriteone, hp, if_true, accept_check h]

/-! ### Configuration (R92, R93) -/

/-- A brightness of three bits does not meet the bits of the command byte, so adding it is setting its bits (R66). -/
theorem displayControl_eq_or {b : Byte} (hb : b ≤ 7) : displayControl b = 0x88 ||| b := by
  have hdisjoint : ∀ b : Byte, b ≤ 7 → 0x88 &&& b = 0 := by decide
  exact BitVec.add_eq_or_of_and_eq_zero _ _ (hdisjoint b hb)

/-- Settles O3: on a ready block the work is the three registers, behind the brightness check. -/
theorem configureStoresOrRefuses : Obligations.ConfigureStoresOrRefuses := by
  refine fun s b dcmd acmd => ⟨rfl, fun hr hb => ?_, fun hr => exec_configure_brightness hr dcmd acmd,
    exec_unconstructed rfl (by simp)⟩
  rw [exec_configure hr b dcmd acmd (BitVec.not_lt.2 hb), State.setConfig, displayControl_eq_or hb]
  cases dcmd <;> cases acmd <;> rfl

/-- Settles O4: on a ready block the work is the one register. -/
theorem setpointStoresPoint : Obligations.SetpointStoresPoint :=
  fun _ on => ⟨rfl, fun hr => exec_setpoint hr on, exec_unconstructed rfl (by simp)⟩

/-! ### Display writes in closed form (R88) -/

@[simp] theorem State.sendFrames_dcmd (fs : List (List Byte)) (s : State) : (s.sendFrames fs).dcmd = s.dcmd := rfl
@[simp] theorem State.sendFrames_marks (fs : List (List Byte)) (s : State) : (s.sendFrames fs).marks = s.marks := rfl

/-- Frames of at least one byte each change the bus and nothing else, and all of the bus is known but for its far side
(R88). -/
theorem State.sendFrames_eq {fs : List (List Byte)} (hf : fs ≠ []) (h : ∀ f ∈ fs, f ≠ []) (s : State) :
    ∃ rx pull, s.sendFrames fs = { s with bus := busAfterFrames s.params.bitDelayUs fs rx pull s.bus } :=
  ⟨_, _, congrArg (fun b => { s with bus := b }) (Bus.sendFrames_eq s.params.bitDelayUs fs s.bus hf h)⟩

/-- One WRITEONE sends its three frames (R95). -/
theorem State.writeOne_busAfterFrames (pos d : Byte) (s : State) :
    ∃ rx pull, s.writeOne pos d = { s with
      bus := busAfterFrames s.params.bitDelayUs (oneFrames s.dctrl pos (Machine.encodeCode s.params s.point d)) rx pull
        s.bus } :=
  State.sendFrames_eq (by simp) (by simp) s

/-- A WRITEALL fills SEGBUF and sends its three frames (R94). -/
theorem State.writeAll_busAfterFrames (d0 d1 d2 d3 : Byte) (s : State) :
    ∃ rx pull, s.writeAll d0 d1 d2 d3 = { s with
      segbuf := #v[s.encodeCode d0, s.encodeCode d1, s.encodeCode d2, s.encodeCode d3]
      bus := busAfterFrames s.params.bitDelayUs
        (allFrames s.dctrl s.acmd [s.encodeCode d0, s.encodeCode d1, s.encodeCode d2, s.encodeCode d3]) rx pull
        s.bus } :=
  State.sendFrames_eq (by simp) (by simp) (s.loadSegbuf d0 d1 d2 d3)

/-- CLEAR sends the frames of four WRITEONEs of the blank (R96). -/
theorem State.clearAll_busAfterFrames (s : State) :
    ∃ rx pull, s.clearAll = { s with
      bus := busAfterFrames s.params.bitDelayUs
        ([0, 1, 2, 3].flatMap fun p : Byte => oneFrames s.dctrl p (if s.point then 0x80 else 0x00)) rx pull s.bus } := by
  rw [State.clearAll_sends, encodeCode_blank]
  exact State.sendFrames_eq (by simp [oneFrames]) (by simp [oneFrames]) s

/-- Settles O18: on a ready block the work is the four encoded bytes in SEGBUF, then three frames. -/
theorem writeallSendsThreeFrames : Obligations.WriteallSendsThreeFrames := by
  refine fun s d0 d1 d2 d3 => ⟨rfl, fun hr => ?_, exec_unconstructed rfl (by simp)⟩
  obtain ⟨rx, pull, hwork⟩ := s.writeAll_busAfterFrames d0 d1 d2 d3
  exact ⟨rx, pull, by rw [exec_writeall hr, hwork]; rfl⟩

/-- Settles O19: on a ready block the work is three frames, behind the position check. -/
theorem writeoneSendsThreeFrames : Obligations.WriteoneSendsThreeFrames := by
  refine fun s pos d => ⟨rfl, fun hr hp => ?_, fun hr => exec_writeone_position hr d, exec_unconstructed rfl (by simp)⟩
  obtain ⟨rx, pull, hwork⟩ := s.writeOne_busAfterFrames pos d
  exact ⟨rx, pull, by rw [exec_writeone hr pos d (BitVec.not_lt.2 hp), hwork, oneFrames]⟩

/-- Settles O20: on a ready block the work is the frames of four WRITEONEs of the blank. -/
theorem clearBlanksFourPositions : Obligations.ClearBlanksFourPositions := by
  refine fun s => ⟨rfl, fun hr => ?_, exec_unconstructed rfl (by simp)⟩
  obtain ⟨rx, pull, hwork⟩ := s.clearAll_busAfterFrames
  exact ⟨rx, pull, by simp only [exec_clear hr, hwork, oneFrames]⟩

/-- Settles O21: INIT and CLEAR have the same work, and frames on the bus leave the registers and the marks alone
(R91). -/
theorem initIsClear : Obligations.InitIsClear := by
  refine fun s => ⟨rfl, fun hr => ⟨_, exec_init hr, exec_clear hr, ?_⟩, exec_unconstructed rfl (by simp)⟩
  simp only [State.clearAll_sends, State.sendFrames_dctrl, State.sendFrames_dcmd, State.sendFrames_acmd,
    State.sendFrames_point, State.sendFrames_marks, and_self]

end Sys2Proof.Machine
end

section
/-!
Number rendering (43_rendering.md): the magnitude over the exact rationals, the numerals of DISPNUM in closed form,
and the statements about the magnitude and about DISPNUM.
-/

namespace Sys2Proof.Machine

open Sys2Proof.Safety

/-! ### The arithmetic of DISPNUM, as the rules write it (R98, R99, R101) -/

/-- The absolute value over the numerator and the denominator that the model computes with. -/
theorem abs_eq_natAbs_div (q : ℚ) : |q| = (q.num.natAbs : ℚ) / q.den := by
  rw [Rat.abs_def, Rat.divInt_eq_div, Int.cast_natCast, Int.cast_natCast]

theorem scaledMagnitude_eq_rounded (q : ℚ) (dp : Byte) : scaledMagnitude q dp = rounded q dp := by
  have hden : (q.den : ℚ) ≠ 0 := Nat.cast_ne_zero.2 q.den_ne_zero
  have hquot : |q| * 10 ^ dp.toNat + 1 / 2 =
      ((2 * q.num.natAbs * 10 ^ dp.toNat + q.den : ℕ) : ℚ) / ((2 * q.den : ℕ) : ℚ) := by
    rw [abs_eq_natAbs_div]
    push_cast
    field_simp
  rw [rounded, hquot, Nat.floor_div_eq_div, scaledMagnitude]

/-- Settles O22: the quotient of the model is the rule's sum over one denominator. -/
theorem magnitudeRoundsToNearest : Obligations.MagnitudeRoundsToNearest := scaledMagnitude_eq_rounded

theorem isNegative_eq_negative (value : Number) : isNegative value = negative value := by
  cases value with
  | finite q => simp only [isNegative, negative, Rat.num_neg]
  | posInf | negInf | nan => rfl

theorem magnitude_eq_inRange (w : Nat) (dp : Byte) (value : Number) : magnitude w dp value = inRange w dp value := by
  cases value with
  | finite q => simp only [magnitude, inRange, fitsWorkingInt, scaledMagnitude_eq_rounded, decide_eq_true_eq]
  | posInf | negInf | nan => rfl

theorem digitCode_eq_numeralCode (m i : Nat) : digitCode (m / 10 ^ i) = numeralCode m i := by
  simp only [digitCode, numeralCode, ne_eq, ite_not]

/-! ### The numerals in closed form (R99, R101, R103) -/

/-- The numeral positions with their index: the `i`-th from the right is position `3 - i`. -/
theorem numeralPositions_zipIdx (neg : Bool) :
    (numeralPositions neg).zipIdx = (List.range (numeralCount neg)).map fun i => (BitVec.ofNat 8 (3 - i), i) := by
  cases neg <;> rfl

theorem numeralPositions_length (neg : Bool) : (numeralPositions neg).length = numeralCount neg := by
  cases neg <;> rfl

/-- The segment byte DISPNUM writes at the `i`-th numeral position from the right: the encoded numeral where the
magnitude is in range, a free byte otherwise (R99, R101). -/
def State.numeralSegment (m : Option Nat) (s : State) (i : Nat) : Byte :=
  match m with
  | some m => Machine.encodeCode s.params s.point (numeralCode m i)
  | none => Config.freeByte (s.byteDraws + i)

/-- The frames of the numerals, rightmost position first. -/
def State.numeralFrames (neg : Bool) (m : Option Nat) (s : State) : List (List Byte) :=
  (List.range (numeralCount neg)).flatMap fun i => oneFrames s.dctrl (BitVec.ofNat 8 (3 - i)) (s.numeralSegment m i)

/-- The frames of the minus glyph at position 0, where there is one. -/
def State.minusFrames (neg : Bool) (s : State) : List (List Byte) :=
  if neg then oneFrames s.dctrl 0 (Machine.encodeCode s.params s.point Config.minusCode) else []

/-- Each numeral is one WRITEONE-shaped write; only free bytes are counted as draws. -/
theorem State.renderNumber_sends (neg : Bool) (m : Option Nat) (s : State) :
    s.renderNumber (numeralPositions neg) m = { s.sendFrames (s.numeralFrames neg m) with
      byteDraws := s.byteDraws + if m.isSome then 0 else numeralCount neg } := by
  cases m with
  | some m =>
    rw [State.renderNumber, State.renderDigits_sends, numeralPositions_zipIdx, List.flatMap_map]
    simp only [digitCode_eq_numeralCode]
    rfl
  | none =>
    rw [State.renderNumber, State.renderDraws_sends, numeralPositions_zipIdx, List.flatMap_map, numeralPositions_length]
    rfl

theorem State.renderMinus_sends (neg : Bool) (s : State) : s.renderMinus neg = s.sendFrames (s.minusFrames neg) := by
  cases neg <;> rfl

/-- DISPNUM's work: POINT, then the frames of the numerals and of the minus glyph, encoded under it (R101, R102). -/
theorem State.renderValue_sends (value : Number) (dp : Byte) (minus : Bool) (s : State) :
    s.renderValue value dp minus =
      { (s.setPoint (pointOfPlaces dp)).sendFrames
          ((s.setPoint (pointOfPlaces dp)).numeralFrames (minus && negative value)
              (inRange s.params.hostIntBits dp value) ++
            (s.setPoint (pointOfPlaces dp)).minusFrames (minus && negative value)) with
        byteDraws := s.byteDraws +
          if (inRange s.params.hostIntBits dp value).isSome then 0 else numeralCount (minus && negative value) } := by
  rw [State.renderValue, isNegative_eq_negative, magnitude_eq_inRange, State.renderNumber_sends,
    State.renderMinus_sends, ← State.sendFrames_sendFrames]
  rfl

/-- Every position is written in three frames of at least one byte (R95). -/
theorem ne_nil_of_mem_oneFrames {dctrl pos seg : Byte} {f : List Byte} (hf : f ∈ oneFrames dctrl pos seg) : f ≠ [] := by
  simp only [oneFrames, List.mem_cons, List.not_mem_nil, or_false] at hf
  rcases hf with rfl | rfl | rfl <;> simp

theorem State.numeralFrames_ne_nil (neg : Bool) (m : Option Nat) (s : State) : s.numeralFrames neg m ≠ [] := by
  cases neg <;> exact List.cons_ne_nil _ _

theorem State.ne_nil_of_mem_frames {neg : Bool} {m : Option Nat} {s : State} {f : List Byte}
    (hf : f ∈ s.numeralFrames neg m ++ s.minusFrames neg) : f ≠ [] := by
  rcases List.mem_append.1 hf with hf | hf
  · obtain ⟨i, -, hi⟩ := List.mem_flatMap.1 hf
    exact ne_nil_of_mem_oneFrames hi
  · cases neg with
    | true => exact ne_nil_of_mem_oneFrames hf
    | false => cases hf

theorem exec_dispnum_places {s : State} (h : Ready s) (value : Number) {dp : Byte} (minus : Bool) (h0 : dp ≠ 0)
    (h2 : dp ≠ 2) :
    exec (.dispnum value dp minus) s = refusedWith s .decimalPlaces (encode (.dispnum value dp minus)) := by
  rw [exec, execDispnum, if_pos ⟨h0, h2⟩, accept_check h]

/-- Settles O23: on a ready block the work is POINT and the frames of the numerals and of the minus glyph, behind the
check of the decimal places. -/
theorem dispnumRendersNumber : Obligations.DispnumRendersNumber := by
  refine fun s value dp minus => ⟨rfl, fun hr hd => ?_, fun hr => exec_dispnum_places hr value minus,
    exec_unconstructed rfl (by simp)⟩
  obtain ⟨rx, pull, hsends⟩ := State.sendFrames_eq (by simp [State.numeralFrames_ne_nil])
    (fun _ => State.ne_nil_of_mem_frames (neg := minus && negative value) (m := inRange s.params.hostIntBits dp value))
    (s.setPoint (pointOfPlaces dp))
  refine ⟨rx, pull, ?_⟩
  rw [exec_dispnum hr value dp minus (by tauto), State.renderValue_sends, hsends]
  cases inRange s.params.hostIntBits dp value <;> rfl

end Sys2Proof.Machine
end

section
/-!
Text rendering (43_rendering.md): the window of a text, a scroll window by window, and the statements about DISPTEXT.
-/

namespace Sys2Proof.Machine

open Sys2Proof.Safety

/-! ### Frames hold no `WAIT_MS` (R140) -/

theorem waitMsCount_append (es fs : List Event) : waitMsCount (es ++ fs) = waitMsCount es + waitMsCount fs :=
  List.countP_append

/-- Events put together from parts without `WAIT_MS` hold none. -/
theorem waitMsCount_flatMap {α : Type} {f : α → List Event} (h : ∀ x, waitMsCount (f x) = 0) (xs : List α) :
    waitMsCount (xs.flatMap f) = 0 := by
  induction xs with
  | nil => rfl
  | cons x xs ih => rw [List.flatMap_cons, waitMsCount_append, h, ih]

theorem waitMsCount_byteEvents (us : Nat) (v : Byte) (a : Level) : waitMsCount (byteEvents us v a) = 0 := by
  have hbits : waitMsCount ((List.range 8).flatMap (bitEvents v)) = 0 := waitMsCount_flatMap (fun _ => rfl) _
  have hack : waitMsCount (ackEvents us a) = 0 := by cases a <;> rfl
  rw [byteEvents, waitMsCount_append, hbits, hack]

theorem waitMsCount_frameEvents (us : Nat) (vs : List Byte) (as : List Level) :
    waitMsCount (frameEvents us vs as) = 0 := by
  have hbytes : waitMsCount (bytesEvents us vs as) = 0 := waitMsCount_flatMap (fun _ => waitMsCount_byteEvents us _ _) _
  rw [frameEvents, waitMsCount_append, waitMsCount_append, hbytes]
  rfl

theorem waitMsCount_framesEvents (us : Nat) (fs : List (List Byte)) (as : List Level) :
    waitMsCount (framesEvents us fs as) = 0 := by
  induction fs generalizing as with
  | nil => rfl
  | cons f fs ih => rw [framesEvents, waitMsCount_append, waitMsCount_frameEvents, ih]

/-- A WRITEALL waits in microseconds only (R140). -/
theorem State.writeAll_waitMsCount (d0 d1 d2 d3 : Byte) (s : State) :
    waitMsCount (s.writeAll d0 d1 d2 d3).bus.trace = waitMsCount s.bus.trace := by
  obtain ⟨rx, pull, hw⟩ := s.writeAll_busAfterFrames d0 d1 d2 d3
  rw [hw, busAfterFrames, waitMsCount_append, waitMsCount_framesEvents, Nat.add_zero]

/-! ### The window of a text (R104) -/

/-- A slot of the window that starts at the text's first code: the code, or the blank after the text. -/
theorem slot_zero (text : List Byte) (j : Nat) : slot text 0 j = text.getD j Config.blankCode := by
  unfold slot
  split
  next => rw [Int.zero_add, Int.toNat_natCast]
  next hout => rw [List.getD_eq_default _ _ (by omega)]

/-- A text of at most four codes is one WRITEALL (R105). -/
theorem State.renderText_of_fits {text : List Byte} (h : text.length ≤ 4) (ms : Nat) (s : State) :
    s.renderText text ms = s.writeAll (text.getD 0 Config.blankCode) (text.getD 1 Config.blankCode)
      (text.getD 2 Config.blankCode) (text.getD 3 Config.blankCode) := by
  rw [State.renderText, if_pos h, State.showWindow, slot_zero, slot_zero, slot_zero, slot_zero]

/-- Settles O24: the two operations have the same work on a ready block. -/
theorem disptextFitsInOneWrite : Obligations.DisptextFitsInOneWrite := by
  intro s text ms hr hfits
  refine ⟨_, ?_, exec_writeall hr _ _ _ _, ?_⟩
  · rw [exec_disptext hr, State.renderText_of_fits hfits]
  · simp only [State.writeAll_waitMsCount]

/-- The window's slots count from its start index, which is four below its number (R106). -/
theorem windowCodes_eq_slots (text : List Byte) (n : Nat) : windowCodes text n =
    [slot text (n - 4) 0, slot text (n - 4) 1, slot text (n - 4) 2, slot text (n - 4) 3] := by
  have hslot (j : Nat) : slot text (n - 4) j =
      if 4 ≤ n + j ∧ n + j < text.length + 4 then text.getD (n + j - 4) Config.blankCode else Config.blankCode := by
    have hin : (0 ≤ (n - 4 : Int) + j ∧ (n - 4 : Int) + j < text.length) ↔
        4 ≤ n + j ∧ n + j < text.length + 4 := by omega
    have hindex : ((n - 4 : Int) + j).toNat = n + j - 4 := by omega
    simp only [slot, hin, hindex]
  simp only [hslot]
  rfl

/-- The last window of a scroll lies after the text (R106). -/
theorem slot_length (text : List Byte) (j : Nat) : slot text text.length j = Config.blankCode :=
  if_neg (by omega)

/-! ### One window of a scroll (R104, R106) -/

/-- The answers that come after `k` of the next `n` are used. -/
theorem upcoming_drop_take {k m n : Nat} (h : k + m ≤ n) (b : Bus) :
    ((upcoming n b).drop k).take m = upcoming m (afterAnswers k b) := by
  obtain ⟨r, rfl⟩ := Nat.exists_eq_add_of_le h
  rw [Nat.add_assoc, upcoming_add, List.drop_left' (upcoming_length k b), upcoming_add,
    List.take_left' (upcoming_length m _)]

/-- The wait before window number `n`, of which the first has none. -/
def waitEvents (ms n : Nat) : List Event := if n = 0 then [] else [.waitMs ms]

/-- The wait before a window, on the bus. -/
def Bus.waitBefore (ms n : Nat) (b : Bus) : Bus := if n = 0 then b else b.emit (.waitMs ms)

theorem Bus.waitBefore_trace (ms n : Nat) (b : Bus) :
    (b.waitBefore ms n).trace = b.trace ++ waitEvents ms n := by
  cases n with
  | zero => exact (List.append_nil _).symm
  | succ n => rfl

theorem Bus.waitBefore_pads (ms n : Nat) (b : Bus) : (b.waitBefore ms n).pads = b.pads := by cases n <;> rfl

theorem Bus.waitBefore_answersUsed (ms n : Nat) (b : Bus) : AnswersUsed 0 b (b.waitBefore ms n) := by
  cases n <;> exact ⟨rfl, rfl⟩

/-- The frames of window number `n`. -/
def State.windowFrames (text : List Byte) (s : State) (n : Nat) : List (List Byte) :=
  allFrames s.dctrl s.acmd ((windowCodes text n).map (Machine.encodeCode s.params s.point))

/-- The encoded window number `n`, as SEGBUF holds it (R31). -/
def State.windowSegments (text : List Byte) (s : State) (n : Nat) : Vector Byte 4 :=
  #v[s.encodeCode (slot text (n - 4) 0), s.encodeCode (slot text (n - 4) 1), s.encodeCode (slot text (n - 4) 2),
    s.encodeCode (slot text (n - 4) 3)]

theorem State.windowSegments_last (text : List Byte) (s : State) :
    s.windowSegments text (text.length + 4) = Vector.replicate 4 (s.encodeCode Config.blankCode) := by
  have hstart : ((text.length + 4 : Nat) - 4 : Int) = text.length := by omega
  simp only [State.windowSegments, hstart, slot_length]
  rfl

/-- A window has one command byte for the mode, five bytes with its segments and one for the brightness. -/
theorem State.windowFrames_length (text : List Byte) (s : State) (n : Nat) :
    ((s.windowFrames text n).map List.length).sum = 7 := rfl

theorem State.scrollWindow_eq (text : List Byte) (ms : Nat) (s : State) (n : Nat) :
    ∃ rx pull, State.scrollWindow text ms s (n - 4) = { s with
      segbuf := s.windowSegments text n
      bus := busAfterFrames s.params.bitDelayUs (s.windowFrames text n) rx pull (s.bus.waitBefore ms n) } := by
  have hwait : (if (n - 4 : Int) > -4 then s.onBus (Bus.emit (.waitMs ms)) else s) = s.onBus (Bus.waitBefore ms n) := by
    cases n with
    | zero => rfl
    | succ n => exact if_pos (by omega)
  obtain ⟨rx, pull, hw⟩ := (s.onBus (Bus.waitBefore ms n)).writeAll_busAfterFrames (slot text (n - 4) 0)
    (slot text (n - 4) 1) (slot text (n - 4) 2) (slot text (n - 4) 3)
  refine ⟨rx, pull, ?_⟩
  rw [State.scrollWindow, hwait, State.showWindow, hw, State.windowFrames, windowCodes_eq_slots]
  rfl

/-! ### A scroll, window by window (R106) -/

/-- The first `n` windows of a scroll. -/
def State.scroll (text : List Byte) (ms : Nat) (s : State) (n : Nat) : State :=
  ((List.range n).map fun n : Nat => (n : Int) - 4).foldl (State.scrollWindow text ms) s

theorem State.scroll_succ (text : List Byte) (ms : Nat) (s : State) (n : Nat) :
    s.scroll text ms (n + 1) = State.scrollWindow text ms (s.scroll text ms n) (n - 4) := by
  simp only [State.scroll, List.range_succ, List.map_append, List.foldl_append, List.map_cons, List.map_nil,
    List.foldl_cons, List.foldl_nil]

theorem State.renderText_of_scrolls {text : List Byte} (h : 4 < text.length) (ms : Nat) (s : State) :
    s.renderText text ms = s.scroll text ms (text.length + 5) :=
  if_neg (Nat.not_le.2 h)

/-- The events of window number `n`, each window using seven answers. -/
def State.windowEvents (text : List Byte) (ms : Nat) (s : State) (n : Nat) : List Event :=
  waitEvents ms n ++
    framesEvents s.params.bitDelayUs (s.windowFrames text n) (upcoming 7 (afterAnswers (7 * n) s.bus))

/-- What a scroll of `n` windows keeps and what it has added to the bus. -/
structure Scrolled (text : List Byte) (ms : Nat) (s : State) (n : Nat) (t : State) : Prop where
  frame : t = { s with segbuf := t.segbuf, bus := t.bus }
  trace : t.bus.trace = s.bus.trace ++ (List.range n).flatMap (s.windowEvents text ms)
  answers : AnswersUsed (7 * n) s.bus t.bus
  clk : t.bus.pads.clkOE = s.bus.pads.clkOE

/-- What the last window leaves behind. -/
structure WindowShown (text : List Byte) (s : State) (n : Nat) (t : State) : Prop where
  segbuf : t.segbuf = s.windowSegments text n
  pads : t.bus.pads = { idlePads with clkOE := s.bus.pads.clkOE, pull := t.bus.pads.pull }
  shift : t.bus.shift = 0
  bitcnt : t.bus.bitcnt = 8
  ack : t.bus.ack = (upcoming (7 * (n + 1)) s.bus).getLastD .low

/-- Window number `n`, shown after the windows before it. -/
theorem Scrolled.scrollWindow {text : List Byte} {ms n : Nat} {s t : State} (h : Scrolled text ms s n t) :
    Scrolled text ms s (n + 1) (State.scrollWindow text ms t (n - 4)) ∧
      WindowShown text s n (State.scrollWindow text ms t (n - 4)) := by
  obtain ⟨hframe, htrace, hanswers, hclk⟩ := h
  obtain ⟨rx, pull, hw⟩ := State.scrollWindow_eq text ms t n
  have hframes : t.windowFrames text n = s.windowFrames text n := by rw [hframe]; rfl
  have hsegs : t.windowSegments text n = s.windowSegments text n := by rw [hframe]; rfl
  have hparams : t.params = s.params := by rw [hframe]
  have hwaited : AnswersUsed (7 * n) s.bus (t.bus.waitBefore ms n) :=
    hanswers.trans (Bus.waitBefore_answersUsed ms n t.bus)
  have hanswer : upcoming 7 (t.bus.waitBefore ms n) = upcoming 7 (afterAnswers (7 * n) s.bus) :=
    upcoming_congr 7 hwaited.1 hwaited.2
  rw [hw, hframes, hsegs, hparams]
  constructor
  · constructor
    case frame => rw [hframe]
    case trace =>
      rw [List.range_succ, List.flatMap_append, List.flatMap_singleton, ← List.append_assoc, ← htrace,
        State.windowEvents, ← List.append_assoc, ← Bus.waitBefore_trace, ← hanswer]
      rfl
    case answers => exact hwaited.trans (afterAnswers_congr 7 rfl rfl)
    case clk => exact (congrArg Pads.clkOE (Bus.waitBefore_pads ms n t.bus)).trans hclk
  · constructor
    case segbuf => rfl
    case pads => rw [busAfterFrames, Bus.waitBefore_pads, hclk]; rfl
    case shift => rfl
    case bitcnt => rfl
    case ack =>
      rw [busAfterFrames, State.windowFrames_length, hanswer, Nat.mul_succ, upcoming_add]
      simp [List.getLastD_eq_getLast?, List.getLast?_append, upcoming]

theorem State.scroll_scrolled (text : List Byte) (ms : Nat) (s : State) (n : Nat) :
    Scrolled text ms s n (s.scroll text ms n) := by
  induction n with
  | zero => exact ⟨rfl, (List.append_nil _).symm, .refl _, rfl⟩
  | succ n ih =>
    rw [State.scroll_succ]
    exact ih.scrollWindow.1

/-- Settles O25: the scroll has shown windows 0 to L + 4, the last of them after the text. -/
theorem disptextScrollsWindows : Obligations.DisptextScrollsWindows := by
  intro s text ms hr hlong
  obtain ⟨hscrolled, hshown⟩ := (s.scroll_scrolled text ms (text.length + 4)).scrollWindow
  rw [← State.scroll_succ, ← State.renderText_of_scrolls hlong] at hscrolled hshown
  obtain ⟨hframe, htrace, hanswers, -⟩ := hscrolled
  obtain ⟨hsegbuf, hpads, hshift, hbitcnt, hack⟩ := hshown
  refine ⟨_, exec_disptext hr text ms, ?frame, ?trace, hpads, hshift, hbitcnt, hack, hanswers⟩
  case frame =>
    rw [State.windowSegments_last] at hsegbuf
    rw [hframe, hsegbuf]
    rfl
  case trace =>
    rw [htrace]
    congr 1
    refine List.flatMap_congr fun n hn => ?_
    have hn : n < text.length + 5 := List.mem_range.1 hn
    have hlast : 7 * n + 7 ≤ 7 * (text.length + 5) := by omega
    rw [upcoming_drop_take hlast]
    rfl

end Sys2Proof.Machine
end

section
/-!
Refusals (60_exceptions.md): the opcode bytes outside R58, the two refusals of CONSTRUCT, what an ill-formed instruction
can be, and the statements that give the order, the recorded values and the completeness of the refusals.
-/

namespace Sys2Proof.Machine

open Sys2Proof.Safety

/-! ### The opcode check (R59, R112) -/

/-- An opcode byte outside R58 selects no operation, whatever the operands: it is none of the fourteen rows' bytes. -/
theorem decodeOp_unknown {o : HostOp} (h : o.op = 0x00 ∨ (0x0A ≤ o.op ∧ o.op ≤ 0x0F) ∨ 0x15 ≤ o.op) :
    decodeOp o = .error .unknownOp := by
  unfold decodeOp
  iterate 14
    refine (if_neg fun hrow => ?_).trans ?_
    · rw [hrow] at h
      revert h
      decide
  rfl

/-- The step takes the operation from the host and adds the mark to what is left (R109). -/
theorem step_unknown {s : State} {o : HostOp} {rest : List Presented} (hs : s.seq = .idle) (hh : s.host = .op o :: rest)
    (ho : o.op = 0x00 ∨ (0x0A ≤ o.op ∧ o.op ≤ 0x0F) ∨ 0x15 ≤ o.op) :
    step s = refusedWith { s with host := rest } .unknownOp (.op o) := by
  have hf : s.fetch = some (.op o, { s with host := rest }) := by simp only [State.fetch, hh]
  simp only [step, hf, runPresented, decode, decodeOp_unknown ho, State.ifIdle, hs, State.refuse, refusedWith]

/-! ### The refusals of CONSTRUCT (R90, R112) -/

theorem exec_construct_constructed {s : State} (hs : s.seq = .idle) (hc : s.constructed = true) (clk dio : PinId) :
    exec (.construct clk dio) s = refusedWith s .alreadyConstructed (encode (.construct clk dio)) := by
  simp only [exec, execConstruct, State.ifIdle, hs, hc, if_true, State.refuse, refusedWith]

theorem exec_construct_samePin {s : State} (hs : s.seq = .idle) (hc : s.constructed = false) (pin : PinId) :
    exec (.construct pin pin) s = refusedWith s .samePin (encode (.construct pin pin)) := by
  simp only [exec, execConstruct, State.ifIdle, hs, hc, Bool.false_eq_true, if_false, if_true, State.refuse, refusedWith]

/-! ### The operand check (R109, R112) -/

/-- Only four instructions have an operand that R58 or R90 restricts, and each has one such restriction. -/
theorem illFormed_cases {i : Instr} (h : i.wellFormed = false) :
    (∃ pin, i = .construct pin pin) ∨ (∃ b d a, i = .configure b d a ∧ b > 7) ∨
      (∃ pos d, i = .writeone pos d ∧ pos > 3) ∨ ∃ v dp m, i = .dispnum v dp m ∧ dp ≠ 0 ∧ dp ≠ 2 := by
  cases i with
  | construct clk dio =>
    obtain rfl : clk = dio := by simpa [Instr.wellFormed] using h
    exact .inl ⟨clk, rfl⟩
  | configure b d a => exact .inr (.inl ⟨b, d, a, rfl, by simpa [Instr.wellFormed] using h⟩)
  | writeone pos d => exact .inr (.inr (.inl ⟨pos, d, rfl, by simpa [Instr.wellFormed] using h⟩))
  | dispnum v dp m => exact .inr (.inr (.inr ⟨v, dp, m, rfl, by simpa [Instr.wellFormed] using h⟩))
  | _ => cases h

/-- Settles O37, check by check; of the operand checks CONSTRUCT's is made on an unconstructed block and the other three
on a ready one. -/
theorem refusalsInOrder : Obligations.RefusalsInOrder := by
  refine ⟨fun s o rest => step_unknown, fun s i hs hi hc hn => exec_unconstructed hi hn hs hc,
    fun s clk dio hs hc => exec_construct_constructed hs hc clk dio, fun s i hs _ hw hc => ?operands⟩
  have ready (hn : ¬ ∃ clk dio, i = .construct clk dio) : Ready s := ⟨hs, by simpa [hn] using hc⟩
  rcases illFormed_cases hw with ⟨pin, rfl⟩ | ⟨b, d, a, rfl, hb⟩ | ⟨pos, d, rfl, hp⟩ | ⟨v, dp, m, rfl, h0, h2⟩
  · exact ⟨_, exec_construct_samePin hs (hc.1 ⟨pin, pin, rfl⟩) pin, .inl ⟨rfl, pin, rfl⟩⟩
  · exact ⟨_, exec_configure_brightness (ready (by simp)) d a hb, .inr (.inl ⟨rfl, b, d, a, rfl, hb⟩)⟩
  · exact ⟨_, exec_writeone_position (ready (by simp)) d hp, .inr (.inr (.inl ⟨rfl, pos, d, rfl, hp⟩))⟩
  · exact ⟨_, exec_dispnum_places (ready (by simp)) v m h0 h2, .inr (.inr (.inr ⟨rfl, v, dp, m, rfl, h0, h2⟩))⟩

/-! ### The recorded value (R109) -/

theorem recordsRefusal_of_refusedWith {s : State} {r : Reason} {p : Presented} {o : Host.Outcome State Fault Refusal}
    (h : o = refusedWith s r p) : RecordsRefusal s r.code p o := by
  rw [h]
  exact refuse_records r p

/-- Settles O50: each refusal records the code of the reason that the checks in order give; the marks only grow, so their
values do, too. -/
theorem refusalsRecordCodeAndOperation : Obligations.RefusalsRecordCodeAndOperation := by
  refine ⟨fun s hs => ⟨?unknownOp, ?unconstructed, ?alreadyConstructed, ?samePin, ?brightness, ?position, ?places⟩,
    fun s t h => ?grow⟩
  case unknownOp => exact fun o rest hh ho => recordsRefusal_of_refusedWith (step_unknown hs hh ho)
  case unconstructed => exact fun i hi hn hc => recordsRefusal_of_refusedWith (exec_unconstructed hi hn hs hc)
  case alreadyConstructed =>
    exact fun clk dio hc => recordsRefusal_of_refusedWith (exec_construct_constructed hs hc clk dio)
  case samePin => exact fun pin hc => recordsRefusal_of_refusedWith (exec_construct_samePin hs hc pin)
  case brightness =>
    exact fun b d a hc hb => recordsRefusal_of_refusedWith (exec_configure_brightness ⟨hs, hc⟩ d a hb)
  case position => exact fun pos d hc hp => recordsRefusal_of_refusedWith (exec_writeone_position ⟨hs, hc⟩ d hp)
  case places =>
    exact fun v dp m hc h0 h2 => recordsRefusal_of_refusedWith (exec_dispnum_places ⟨hs, hc⟩ v m h0 h2)
  case grow =>
    obtain ⟨⟨ms, hms, -⟩, -⟩ := marksAndTraceOnlyGrow s t h
    exact ⟨ms.map Mark.value, by rw [hms, List.map_append]⟩

/-! ### What is not refused (R111) -/

/-- Settles O38: on a ready block an admitted operation runs, and its work leaves the marks and the sequencer alone. -/
theorem admittedOperationsAreNotRefused : Obligations.AdmittedOperationsAreNotRefused := by
  intro i s ⟨hs, hc⟩ _ hw hn
  obtain ⟨r, hx⟩ := exec_of_runs (i := i) (s := s) ⟨hw, fun _ => ⟨hs, by simp [hc, hn]⟩⟩
  refine ⟨_, hx, work_marks i s, ?_⟩
  rw [work_frame hn s]
  exact hs

end Sys2Proof.Machine
end

section
/-!
Hazards and waits (70_reset_and_hazards.md): a host operation presented during another, the waits of frames on the bus
and of the display operations' work, and the statements about overlap and about the waits of rendering.
-/

namespace Sys2Proof.Machine

open Sys2Proof.Safety

/-! ### Overlapping operations (R136) -/

/-- Settles O39: neither CONSTRUCT nor the admission of the other host operations takes one while the sequencer is
busy. -/
theorem overlappingOperationFaults : Obligations.OverlappingOperationFaults := by
  intro s i op hbusy hi
  cases i with
  | construct clk dio => simp only [exec, execConstruct, State.ifIdle, hbusy]
  | wireDataAuto | wireDataFixed | wireAddr | wireDispctrl => cases hi
  | _ =>
    simp only [exec, execInit, execConfigure, execSetpoint, execWriteall, execWriteone, execClear, execDispnum,
      execDisptext, execStart, execStop, execWritebyte, execBitdelay, execEncode, accept_busy hbusy]

/-! ### Waits added to the trace (R140) -/

theorem waitUsCount_append (es fs : List Event) : waitUsCount (es ++ fs) = waitUsCount es + waitUsCount fs :=
  List.countP_append

/-- A byte waits three times in its acknowledge phase and never before (R76). -/
theorem waitUsCount_byteEvents (us : Nat) (v : Byte) (a : Level) : waitUsCount (byteEvents us v a) = 3 := by
  have hbits : waitUsCount ((List.range 8).flatMap (bitEvents v)) = 0 := rfl
  have hack : waitUsCount (ackEvents us a) = 3 := by cases a <;> rfl
  rw [byteEvents, waitUsCount_append, hbits, hack]

/-- From `b` to `c` the trace has gained `us` events `WAIT_US` and `ms` events `WAIT_MS`. -/
structure Waited (us ms : Nat) (b c : Bus) : Prop where
  waitUs : waitUsCount c.trace = waitUsCount b.trace + us
  waitMs : waitMsCount c.trace = waitMsCount b.trace + ms

theorem Waited.refl (b : Bus) : Waited 0 0 b b := ⟨rfl, rfl⟩

theorem Waited.trans {us us' ms ms' : Nat} {a b c : Bus} (h : Waited us ms a b) (h' : Waited us' ms' b c) :
    Waited (us + us') (ms + ms') a c :=
  ⟨by rw [h'.waitUs, h.waitUs, Nat.add_assoc], by rw [h'.waitMs, h.waitMs, Nat.add_assoc]⟩

/-- Work that adds `es` to the trace has the waits of `es`. -/
theorem waited_of_trace {b c : Bus} {es : List Event} (h : c.trace = b.trace ++ es) :
    Waited (waitUsCount es) (waitMsCount es) b c :=
  ⟨by rw [h, waitUsCount_append], by rw [h, waitMsCount_append]⟩

/-! ### Waits of the Bus Transport -/

theorem Bus.writeByte_waited (us : Nat) (v : Byte) (b : Bus) : Waited 3 0 b (b.writeByte us v) := by
  have h := waited_of_trace (Bus.writeByte_trace us v b)
  rwa [waitUsCount_byteEvents, waitMsCount_byteEvents] at h

theorem Bus.writeBytes_waited (us : Nat) (vs : List Byte) (b : Bus) :
    Waited (3 * vs.length) 0 b (b.writeBytes us vs) := by
  induction vs generalizing b with
  | nil => exact .refl b
  | cons v vs ih =>
    rw [List.length_cons, Nat.mul_succ, Nat.add_comm]
    exact (Bus.writeByte_waited us v b).trans (ih _)

/-- START and STOP do not wait (R72, R74). -/
theorem Bus.sendFrame_waited (us : Nat) (vs : List Byte) (b : Bus) :
    Waited (3 * vs.length) 0 b (b.sendFrame us vs) := by
  have hstart : Waited 0 0 b b.start := waited_of_trace b.start_trace
  have hstop (c : Bus) : Waited 0 0 c c.stop := waited_of_trace c.stop_trace
  have h := (hstart.trans (Bus.writeBytes_waited us vs b.start)).trans (hstop _)
  rwa [Nat.zero_add] at h

/-- Frames wait three times for each of their bytes. -/
theorem Bus.sendFrames_waited (us : Nat) (fs : List (List Byte)) (b : Bus) :
    Waited (3 * (fs.map List.length).sum) 0 b (b.sendFrames us fs) := by
  induction fs generalizing b with
  | nil => exact .refl b
  | cons f fs ih =>
    rw [List.map_cons, List.sum_cons, Nat.mul_add]
    exact (Bus.sendFrame_waited us f b).trans (ih _)

/-! ### Waits of the display operations -/

theorem State.sendFrames_waited {n : Nat} {fs : List (List Byte)} (hn : (fs.map List.length).sum = n) (s : State) :
    Waited (3 * n) 0 s.bus (s.sendFrames fs).bus := by
  rw [← hn]
  exact Bus.sendFrames_waited s.params.bitDelayUs fs s.bus

/-- CLEAR sends four bytes at each of four positions (R96). -/
theorem State.clearAll_waited (s : State) : Waited 48 0 s.bus s.clearAll.bus := by
  rw [State.clearAll_sends]
  exact State.sendFrames_waited (n := 16) rfl s

/-- With or without the minus glyph DISPNUM writes each of the four positions once (R101, R103). -/
theorem State.numberFrames_bytes (neg : Bool) (m : Option Nat) (s : State) :
    ((s.numeralFrames neg m ++ s.minusFrames neg).map List.length).sum = 16 := by
  cases neg <;> rfl

theorem State.renderValue_waited (value : Number) (dp : Byte) (minus : Bool) (s : State) :
    Waited 48 0 s.bus (s.renderValue value dp minus).bus := by
  rw [State.renderValue_sends]
  exact State.sendFrames_waited (State.numberFrames_bytes _ _ _) (s.setPoint (pointOfPlaces dp))

/-- A WRITEALL sends seven bytes (R94). -/
theorem State.writeAll_waited (d0 d1 d2 d3 : Byte) (s : State) :
    Waited 21 0 s.bus (s.writeAll d0 d1 d2 d3).bus :=
  State.sendFrames_waited (n := 7) rfl (s.loadSegbuf d0 d1 d2 d3)

/-- A window of a scroll is a WRITEALL, after one `WAIT_MS` unless it is the first (R104, R106). -/
theorem State.scrollWindow_waited (text : List Byte) (ms : Nat) (k : Int) (s : State) :
    Waited 21 (if k > -4 then 1 else 0) s.bus (State.scrollWindow text ms s k).bus := by
  unfold State.scrollWindow
  split
  next =>
    have hwait : Waited 0 1 s.bus (s.onBus (Bus.emit (.waitMs ms))).bus := waited_of_trace (es := [.waitMs ms]) rfl
    exact hwait.trans (State.writeAll_waited _ _ _ _ _)
  next => exact State.writeAll_waited _ _ _ _ s

/-- The first `n` windows of a scroll: one `WAIT_MS` between any two (R106). -/
theorem State.scroll_waited (text : List Byte) (ms : Nat) (s : State) (n : Nat) :
    Waited (21 * n) (n - 1) s.bus (s.scroll text ms n).bus := by
  induction n with
  | zero => exact .refl s.bus
  | succ n ih =>
    have hms : n + 1 - 1 = n - 1 + if (n - 4 : Int) > -4 then 1 else 0 := by split <;> omega
    rw [State.scroll_succ, Nat.mul_succ, hms]
    exact ih.trans (State.scrollWindow_waited text ms _ _)

/-- DISPTEXT: one WRITEALL where the text fits, else a scroll of L + 5 windows (R105, R106). -/
theorem State.renderText_waited (text : List Byte) (ms : Nat) (s : State) :
    Waited (21 * if text.length ≤ 4 then 1 else text.length + 5) (if text.length ≤ 4 then 0 else text.length + 4)
      s.bus (s.renderText text ms).bus := by
  split
  next hfits =>
    rw [State.renderText_of_fits hfits]
    exact State.writeAll_waited _ _ _ _ s
  next hlong =>
    rw [State.renderText_of_scrolls (Nat.not_le.1 hlong)]
    exact State.scroll_waited text ms s (text.length + 5)

/-- Settles O27: on a ready block each operation's waits are those of its work. -/
theorem renderingWaitCounts : Obligations.RenderingWaitCounts := by
  refine ⟨fun s t hr hx => ?clear, fun s t value dp minus hr hd hx => ?dispnum, fun s t text ms hr hx => ?disptext⟩
  case clear =>
    obtain rfl := Host.Outcome.next.inj ((exec_clear hr).symm.trans hx)
    obtain ⟨hus, hms⟩ := s.clearAll_waited
    exact ⟨hus, hms⟩
  case dispnum =>
    have hplaces : ¬ (dp ≠ 0 ∧ dp ≠ 2) := by tauto
    obtain rfl := Host.Outcome.next.inj ((exec_dispnum hr value dp minus hplaces).symm.trans hx)
    obtain ⟨hus, hms⟩ := s.renderValue_waited value dp minus
    exact ⟨hus, hms⟩
  case disptext =>
    obtain rfl := Host.Outcome.next.inj ((exec_disptext hr text ms).symm.trans hx)
    obtain ⟨hus, hms⟩ := s.renderText_waited text ms
    exact ⟨hus, hms⟩

end Sys2Proof.Machine
end

section
/-!
The open character table and the numeral table (41_segment_encoder.md): what the constraints of R84 come to under the way
the model reads a list of glyphs, and the values of R83.
-/

namespace Sys2Proof.Machine

open Sys2Proof.Safety

section CharTable

variable (p : Config.Params) {c : Byte}

/-- The codes R84 (c) names as not printable are not. -/
theorem not_printable (h : (0x10 ≤ c ∧ c ≤ 0x1F) ∨ 0x80 ≤ c) : printable c = false := by
  have hrange : ¬ (0x20 ≤ c ∧ c ≤ 0x7E) := by bv_omega
  simpa [printable] using hrange

theorem charTable_of_not_printable (h : printable c = false) : charTable p c = 0 := by
  simp only [charTable, h, Bool.false_eq_true, if_false]

/-- A code whose glyph key is not listed is not recognized (R84 (c)). -/
theorem charTable_of_not_listed (h : ∀ e ∈ p.charGlyphs, e.1 ≠ glyphKey c) : charTable p c = 0 := by
  have hlookup : p.charGlyphs.lookup (glyphKey c) = none :=
    List.lookup_eq_none_iff.2 fun e he => by simpa using (h e he).symm
  simp [charTable, hlookup]

end CharTable

/-- Settles O9: an entry is seven bits wide, 'b' is looked up under 'B', and what is not printable or not listed is
blank. -/
theorem characterTableIsAdmitted : Obligations.CharacterTableIsAdmitted := fun p c =>
  ⟨charTable_bit7 p c, rfl, fun h => charTable_of_not_printable p (not_printable h), charTable_of_not_listed p⟩

/-- Settles O10: the sixteen entries, read one by one. -/
theorem numeralTableValues : Obligations.NumeralTableValues := by
  unfold Obligations.NumeralTableValues
  decide

end Sys2Proof.Machine
end

section
/-!
The far side of the bus in the transport's operations (40_bus_transport.md, 70_reset_and_hazards.md): how long the
environment pulls, what the receiver hears of a byte and of a wait, and the numbers of events.
-/

namespace Sys2Proof.Machine

open Sys2Proof.Safety

/-! ### The environment's pull (entry 6) -/

/-- Settles O14: the pads each operation leaves say what is pulled. -/
theorem pullLastsUntilFallingEdge : Obligations.PullLastsUntilFallingEdge := by
  refine fun s hr => ⟨⟨_, exec_start hr, ?_⟩, ⟨_, exec_stop hr, ?_⟩, ⟨_, exec_bitdelay hr, rfl⟩,
    fun v => ⟨_, exec_writebyte hr v, ?_⟩⟩
  · simp only [State.onBus_bus, Bus.start_pads]
  · simp only [State.onBus_bus, Bus.stop_pads]
  · simp only [State.onBus_bus, Bus.writeByte_pads]

/-! ### The number of events (R76, R94, R95) -/

/-- An acknowledged byte has the two events A6a and A6b more (R76). -/
theorem byteEvents_length (us : Nat) (v : Byte) (a : Level) :
    (byteEvents us v a).length = 33 + 2 * [a].count .low := by
  cases a <;> rfl

theorem bytesEvents_length (us : Nat) {vs : List Byte} {as : List Level} (h : as.length = vs.length) :
    (bytesEvents us vs as).length = 33 * vs.length + 2 * as.count .low := by
  induction vs generalizing as with
  | nil => rw [List.length_eq_zero_iff.1 h]; rfl
  | cons v vs ih =>
    cases as with
    | nil => cases h
    | cons a as =>
      have hrest := ih (as := as) (Nat.succ.inj h)
      have hcons : bytesEvents us (v :: vs) (a :: as) = byteEvents us v a ++ bytesEvents us vs as := rfl
      have hcount : (a :: as).count .low = [a].count .low + as.count .low := List.count_append (l₁ := [a])
      rw [hcons, List.length_append, byteEvents_length, hrest, hcount, List.length_cons]
      omega

/-- A frame has four events of START and four of STOP beside those of its bytes (R48). -/
theorem frameEvents_length (us : Nat) {vs : List Byte} {as : List Level} (h : as.length = vs.length) :
    (frameEvents us vs as).length = 8 + 33 * vs.length + 2 * as.count .low := by
  simp only [frameEvents, List.length_append, bytesEvents_length us h, startEvents, stopEvents, List.length_cons,
    List.length_nil]
  omega

theorem framesEvents_length (us : Nat) {fs : List (List Byte)} {as : List Level}
    (h : as.length = (fs.map List.length).sum) :
    (framesEvents us fs as).length = 8 * fs.length + 33 * (fs.map List.length).sum + 2 * as.count .low := by
  induction fs generalizing as with
  | nil => rw [List.length_eq_zero_iff.1 h]; rfl
  | cons f fs ih =>
    rw [List.map_cons, List.sum_cons] at h
    have hfirst := frameEvents_length us (vs := f) (as := as.take f.length) (by rw [List.length_take]; omega)
    have hrest := ih (as := as.drop f.length) (by rw [List.length_drop]; omega)
    have hcount : as.count .low = (as.take f.length).count .low + (as.drop f.length).count .low := by
      rw [← List.count_append, List.take_append_drop]
    rw [framesEvents, List.length_append, hfirst, hrest, hcount, List.map_cons, List.sum_cons, List.length_cons]
    omega

/-- The events of frames: 8 for each frame, 33 for each byte, 2 for each acknowledged byte. -/
theorem State.sendFrames_trace_length {k n : Nat} {fs : List (List Byte)} (hk : fs.length = k)
    (hn : (fs.map List.length).sum = n) (s : State) : (s.sendFrames fs).bus.trace.length =
      s.bus.trace.length + 8 * k + 33 * n + 2 * (upcoming n s.bus).count .low := by
  subst hk hn
  rw [State.sendFrames, State.onBus_bus, Bus.sendFrames_trace, List.length_append,
    framesEvents_length _ (upcoming_length _ _)]
  omega

/-- Settles O17: a byte has 33 events and 2 more where it is acknowledged, a WRITEONE is three frames of four bytes in
all, and a WRITEALL three of seven. -/
theorem eventAndWaitCounts : Obligations.EventAndWaitCounts := by
  refine ⟨fun s t v hr hx => ?byte, fun s t pos d hr hp hx => ?one, fun s t d0 d1 d2 d3 hr hx => ?all⟩
  case byte =>
    obtain rfl := Host.Outcome.next.inj ((exec_writebyte hr v).symm.trans hx)
    refine ⟨?_, (Bus.writeByte_waited s.params.bitDelayUs v s.bus).waitUs⟩
    rw [State.onBus_bus, Bus.writeByte_trace, List.length_append, byteEvents_length]
    cases s.bus.nextAnswer <;> rfl
  case one =>
    obtain rfl := Host.Outcome.next.inj ((exec_writeone hr pos d (BitVec.not_lt.2 hp)).symm.trans hx)
    exact ⟨State.sendFrames_trace_length (k := 3) (n := 4) rfl rfl s, (State.sendFrames_waited (n := 4) rfl s).waitUs⟩
  case all =>
    obtain rfl := Host.Outcome.next.inj ((exec_writeall hr d0 d1 d2 d3).symm.trans hx)
    exact ⟨State.sendFrames_trace_length (k := 3) (n := 7) rfl rfl (s.loadSegbuf d0 d1 d2 d3),
      (s.writeAll_waited d0 d1 d2 d3).waitUs⟩

/-! ### What the receiver hears of a byte and of a wait -/

/-- A receiver in an open frame, between bytes, on the lines as START and WRITEBYTE leave them. -/
theorem collecting_of_heard {b : Bus} (hp : b.pads = openPads ∨ ∃ pull, b.pads = bytePads pull) (hh : Heard b)
    (hf : b.rx.inFrame = true) (hb : b.rx.bits = []) : ∃ c, Collecting b b.rx c .low [] b.rx.bytes := by
  obtain ⟨hc, hd⟩ := hh
  have hrx {c d : Level} (hc : b.rx.seenClk = c) (hd : b.rx.seenDio = d) :
      b.rx = b.rx.collecting [] b.rx.bytes c d := by
    rw [← hc, ← hd, ← hb, Receiver.collecting, Receiver.withLine, ← hf]
  rcases hp with hp | ⟨pull, hp⟩
  · rw [hp] at hc hd
    exact ⟨.low, ⟨false, hp, by simp⟩, hrx hc hd⟩
  · rw [hp] at hc hd
    have hlow : (bytePads pull).dioHeard = .low := by cases pull <;> rfl
    exact ⟨.high, ⟨pull, hp, fun _ => ⟨rfl, rfl⟩⟩, hrx hc (hd.trans hlow)⟩

/-- Settles O32: eight bits are heard as the byte; without an acknowledgement DIO falls at event A9 while CLK is HIGH,
which is a start condition. -/
theorem unacknowledgedByteRestartsFrame : Obligations.UnacknowledgedByteRestartsFrame := by
  intro s v hr hp hh hf hb
  obtain ⟨c, hcoll⟩ := collecting_of_heard hp hh hf hb
  refine ⟨_, exec_writebyte hr v, ?_⟩
  have hrx (bytes : List Byte) : s.bus.rx.collecting [] bytes .high .low =
      { s.bus.rx with bytes := bytes, seenClk := .high, seenDio := .low } := by
    rw [Receiver.collecting, Receiver.withLine, ← hf, ← hb]
  cases ha : s.bus.nextAnswer with
  | low => exact (hcoll.writeByte_low s.params.bitDelayUs v ha).rx.trans (hrx _)
  | high => exact (hcoll.writeByte_high s.params.bitDelayUs v ha).rx.trans (hrx _)

/-- A receiver that has heard the lines hears nothing new of the same lines, if they are not contended. -/
theorem listen_of_heard {rx : Receiver} {p : Pads} (hc : rx.seenClk = p.clkHeard) (hd : rx.seenDio = p.dioHeard)
    (hp : p.contends = false) (n : Nat) : rx.listen n p = rx := by
  rw [Receiver.listen, hp, if_neg Bool.false_ne_true, ← hc, ← hd, hear_seen]

/-- Settles O15: a wait leaves the pads as they are, so the receiver listens to lines it has heard. -/
theorem bitdelayWaitsOnce : Obligations.BitdelayWaitsOnce :=
  fun _ => ⟨rfl, fun hr => ⟨_, fun hh hp => listen_of_heard hh.1 hh.2 hp _, exec_bitdelay hr⟩,
    exec_unconstructed rfl (by simp)⟩

/-! ### An early acknowledge pull (R134) -/

section AckFall

variable (b : Bus) (v : Byte)

/-- At event A1 the block still drives bit 7, with CLK LOW, and a pull stands exactly if it begins early. -/
theorem Bus.byteFall_pads : (Bus.sendBits 8 (b.loadShift v)).ackFall.pads = { b.pads with
    clkO := .driven .low, dioO := .driven (.ofBit (v.getLsbD 7)), pull := b.pullsEarly } := by
  obtain ⟨l, pull, hp⟩ := Bus.sendBits_succ_pads 7 (b.loadShift v)
  have hl : PadLevel.driven l = .driven (.ofBit (v.getLsbD 7)) :=
    (congrArg Pads.dioO hp).symm.trans (Bus.sendBits_eight_dioO v b)
  have he : (Bus.sendBits 8 (b.loadShift v)).pullsEarly = b.pullsEarly :=
    Bus.pullsEarly_congr (Bus.sendBits_answers 8 _) (Bus.sendBits_sampleDraws 8 _)
  rw [Bus.ackFall_pads, hp, he, hl]
  rfl

/-- The three environments of R134's second half do not pull early. -/
theorem Bus.pullsEarly_eq_false
    (h : b.answers = .reference ∨ (∃ as, b.answers = .oracle (⟨.low, false⟩ :: as)) ∨ b.nextAnswer = .high) :
    b.pullsEarly = false := by
  rcases h with h | ⟨as, h⟩ | h
  · simp [Bus.pullsEarly, h]
  · simp [Bus.pullsEarly, h]
  · simp [Bus.pullsEarly, h]

end AckFall

theorem Bus.release_rx (b : Bus) : b.release.rx = b.rx.listen b.trace.length b.release.pads := by simp [Bus.release]

/-- While CLK is LOW, whatever the level on DIO, the receiver's open frame stays as it is (R121, R134). -/
theorem listen_clk_low {p : Pads} (h : p.clkLine = .driven .low) (n : Nat) (rx : Receiver) :
    (rx.listen n p).inFrame = rx.inFrame ∧ (rx.listen n p).bits = rx.bits ∧ (rx.listen n p).bytes = rx.bytes := by
  rw [Receiver.listen, Pads.clkHeard, h, PadLevel.taken, hear_low]
  exact ⟨rfl, rfl, rfl⟩

/-- Settles O49: the line follows from the pads at A1 by the rules of R16, and while CLK is LOW nothing is heard. -/
theorem earlyAcknowledgePullContends : Obligations.EarlyAcknowledgePullContends := by
  rintro b a v hc hd rfl
  have hp := Bus.byteFall_pads b v
  generalize hsent : Bus.sendBits 8 (b.loadShift v) = sent at hp ⊢
  have hdOE : sent.ackFall.pads.dioOE = true := by rw [hp]; exact hd
  have hdO : sent.ackFall.pads.dioO = .driven (.ofBit (v.getLsbD 7)) := by rw [hp]
  have hpull : sent.ackFall.pads.pull = b.pullsEarly := by rw [hp]
  have hclk : sent.ackFall.pads.clkLine = .driven .low := by simp only [Pads.clkLine, hp, hc, if_true]
  have hclk' : sent.ackFall.release.pads.clkLine = .driven .low := by
    rw [Bus.release_pads]
    exact hclk
  obtain ⟨driven, contended, -, -⟩ := dioLineLevel sent.ackFall.pads
  refine ⟨fun us => by rw [Bus.writeByte, hsent], hdOE, ?bit7, fun as ha h7 => ?early, fun h7 => ?low, fun h => ?late,
    hclk, hclk', ?hears⟩
  case bit7 => rw [hdO]; cases v.getLsbD 7 <;> rfl
  case early =>
    have hearly : b.pullsEarly = true := by simp [Bus.pullsEarly, Bus.nextAnswer, ha]
    exact contended hdOE (hpull.trans hearly) (by rw [hdO, h7]; rfl)
  case low =>
    have hlow : sent.ackFall.pads.dioO = .driven .low := by rw [hdO, h7]; rfl
    exact (driven hdOE (.inr (by rw [hlow]; decide))).trans hlow
  case late => exact driven hdOE (.inl (hpull.trans (Bus.pullsEarly_eq_false b h)))
  case hears =>
    obtain ⟨hframe, hbits, hbytes⟩ := listen_clk_low hclk sent.trace.length sent.rx
    rintro c (rfl | rfl)
    · exact ⟨hframe, hbits, hbytes⟩
    · obtain ⟨hframe', hbits', hbytes'⟩ := listen_clk_low hclk' sent.ackFall.trace.length sent.ackFall.rx
      rw [Bus.release_rx]
      exact ⟨hframe'.trans hframe, hbits'.trans hbits, hbytes'.trans hbytes⟩

end Sys2Proof.Machine
end

section
/-!
The reference receiver (60_exceptions.md section 6): what each frame leaves behind, on the wire port and as the frames of
the display operations, and the statements about what the display shows.
-/

namespace Sys2Proof.Machine

open Sys2Proof.Safety Sys2Proof.Laws

/-! ### The payload of an address frame (R124) -/

/-- The receiver with one byte of RAM written. -/
def Receiver.putByte (addr : Nat) (s : Byte) (rx : Receiver) : Receiver :=
  { rx with ram := rx.ram.setIfInBounds addr s }

/-- RAM with consecutive bytes from a position on. -/
def filledFrom (addr : Nat) (ss : List Byte) (ram : Vector Byte 4) : Vector Byte 4 :=
  Vector.ofFn fun j : Fin 4 => if addr ≤ j then ss.getD (j - addr) ram[j] else ram[j]

theorem filledFrom_nil (addr : Nat) (ram : Vector Byte 4) : filledFrom addr [] ram = ram := by
  ext j hj
  simp [filledFrom]

/-- The first byte goes to the position, the others from the next one on. -/
theorem filledFrom_cons (addr : Nat) (s : Byte) (ss : List Byte) (ram : Vector Byte 4) :
    filledFrom (addr + 1) ss (ram.setIfInBounds addr s) = filledFrom addr (s :: ss) ram := by
  ext1 j hj
  rcases Nat.lt_trichotomy j addr with hbelow | rfl | habove
  · have hout : addr ≠ j ∧ ¬ addr ≤ j ∧ ¬ addr < j := by omega
    simp [filledFrom, Vector.getElem_setIfInBounds, hout]
  · simp [filledFrom]
  · have hin : addr ≠ j ∧ addr ≤ j ∧ ¬ j ≤ addr := by omega
    have hindex : j - addr = j - (addr + 1) + 1 := by omega
    simp [filledFrom, Vector.getElem_setIfInBounds, hin, habove, hindex]

section Store

variable {addr : Nat} {ss : List Byte} {rx : Receiver}

theorem store_cons_fixed (hm : rx.mode = .fixed) (ha : addr ≤ 3) (s : Byte) :
    Receiver.store addr (s :: ss) rx = Receiver.store addr ss (rx.putByte addr s) := by
  rw [Receiver.store, if_neg (Nat.not_lt.2 ha), hm, if_neg (by decide), Receiver.putByte, hm]

theorem store_cons_auto (hm : rx.mode = .auto) (ha : addr ≤ 3) (s : Byte) :
    Receiver.store addr (s :: ss) rx = Receiver.store (addr + 1) ss (rx.putByte addr s) := by
  rw [Receiver.store, if_neg (Nat.not_lt.2 ha), hm, if_pos rfl, Receiver.putByte, hm]

/-- A single byte goes to the addressed position in either mode. -/
theorem store_single (ha : addr ≤ 3) (s : Byte) : Receiver.store addr [s] rx = rx.putByte addr s := by
  cases hm : rx.mode with
  | auto => exact store_cons_auto hm ha s
  | fixed => exact store_cons_fixed hm ha s

/-- In FIXED mode every byte goes to the addressed position, so the last one stays. -/
theorem store_fixed (hm : rx.mode = .fixed) (ha : addr ≤ 3) :
    Receiver.store addr ss rx = ss.getLast?.elim rx fun b => rx.putByte addr b := by
  induction ss generalizing rx with
  | nil => rfl
  | cons s ss ih =>
    rw [store_cons_fixed hm ha, ih (rx := rx.putByte addr s) hm, List.getLast?_cons]
    cases ss.getLast? with
    | none => rfl
    | some b => simp [Receiver.putByte]

/-- In AUTO mode bytes that end by position 3 fill consecutive positions. -/
theorem store_auto (hm : rx.mode = .auto) (ha : addr + ss.length ≤ 4) :
    Receiver.store addr ss rx = { rx with ram := filledFrom addr ss rx.ram } := by
  induction ss generalizing addr rx with
  | nil =>
    rw [filledFrom_nil]
    rfl
  | cons s ss ih =>
    rw [List.length_cons] at ha
    rw [store_cons_auto hm (by omega), ih (rx := rx.putByte addr s) hm (by omega), ← filledFrom_cons]
    rfl

/-- In AUTO mode bytes that run past position 3 leave the receiver's state free. -/
theorem store_auto_overrun (hm : rx.mode = .auto) (ha : addr ≤ 4) (hl : 4 < addr + ss.length) :
    Receiver.store addr ss rx = rx.havoc := by
  induction ss generalizing addr rx with
  | nil => rw [List.length_nil] at hl; omega
  | cons s ss ih =>
    rw [List.length_cons] at hl
    by_cases hin : addr ≤ 3
    · rw [store_cons_auto hm hin, ih (rx := rx.putByte addr s) hm (by omega) (by omega)]
      rfl
    · rw [Receiver.store, if_pos (Nat.not_le.1 hin)]

end Store

/-! ### The wire commands (R123 to R126) -/

/-- Settles O28: the command's work is the receiver's MODE. -/
theorem wireDataSetsMode : Obligations.WireDataSetsMode := fun _ => ⟨rfl, rfl⟩

/-- Settles O29: the command's work is the receiver's DISP_ON and DISP_BRIGHT. -/
theorem wireDispctrlSetsBrightness : Obligations.WireDispctrlSetsBrightness := fun _ _ => rfl

/-- Settles O30: the command's work is the payload's way through RAM, mode by mode. -/
theorem wireAddrWritesPositions : Obligations.WireAddrWritesPositions := by
  intro s p payload
  have hp : p.toNat ≤ 3 := Nat.lt_succ_iff.1 p.isLt
  have hx : exec (.wireAddr p payload) s = .next (s.onReceiver (Receiver.store p.toNat payload)) := rfl
  refine ⟨fun h => ?last, fun hm hl => ?fits, fun hm hl => ?overrun⟩
  case last =>
    have hstore : Receiver.store p.toNat payload s.bus.rx =
        payload.getLast?.elim s.bus.rx fun b => s.bus.rx.putByte p.toNat b := by
      rcases h with hm | hl
      · exact store_fixed hm hp
      · match payload, hl with
        | [], _ => rfl
        | [b], _ => exact store_single hp b
    rw [hx, State.onReceiver, State.onBus, hstore]
    cases payload.getLast? <;> rfl
  case fits =>
    rw [hx, State.onReceiver, State.onBus, store_auto hm hl]
    rfl
  case overrun =>
    rw [hx, State.onReceiver, State.onBus, store_auto_overrun hm (by omega) hl]
    rfl

/-- The address commands are the four bytes from 0xC0 on (R65). -/
theorem addressCommand_iff : ∀ c : Byte, c &&& 0xFC = 0xC0 ↔ 0xC0 ≤ c ∧ c ≤ 0xC3 := by decide +kernel

/-- The display-control commands are the eight bytes from 0x88 on (R66). -/
theorem displayCommand_iff : ∀ c : Byte, c &&& 0xF8 = 0x88 ↔ 0x88 ≤ c ∧ c ≤ 0x8F := by decide +kernel

/-- A frame outside the source: no address command, and overlong or of no named command (R126). -/
theorem decodeFrame_foreign {c : Byte} {payload : List Byte} (ha : ¬ (0xC0 ≤ c ∧ c ≤ 0xC3))
    (h : payload ≠ [] ∨ (c ≠ 0x40 ∧ c ≠ 0x44 ∧ ¬ (0x88 ≤ c ∧ c ≤ 0x8F))) :
    decodeFrame (c :: payload) = .error .foreignFrame := by
  rw [← addressCommand_iff] at ha
  rw [← displayCommand_iff] at h
  rw [decodeFrame, if_neg ha]
  split
  next => rfl
  next hone =>
    obtain ⟨hauto, hfixed, hctrl⟩ := h.resolve_left hone
    rw [wireDataAutoByte, wireDataFixedByte, if_neg hauto, if_neg hfixed, if_neg hctrl]

/-- Settles O31: the step takes the frame, which is foreign, or empty. -/
theorem foreignFrameHavocsReceiver : Obligations.ForeignFrameHavocsReceiver := by
  intro s rest c payload
  have hfetch {f : List Byte} (hh : s.host = .frame f :: rest) :
      s.fetch = some (.frame f, { s with host := rest }) := by simp only [State.fetch, hh]
  refine ⟨fun hh ha h => ?_, fun hh => ?_⟩
  · simp only [step, hfetch hh, runPresented, decode, decodeFrame_foreign ha h]
    rfl
  · simp only [step, hfetch hh, runPresented, decode, decodeFrame]

/-! ### Frames of the display operations, as the receiver processes them -/

theorem process_wireDataAuto (rx : Receiver) : rx.process [0x40] = rx.setMode .auto := rfl

theorem process_wireDataFixed (rx : Receiver) : rx.process [0x44] = rx.setMode .fixed := rfl

theorem process_wireAddrByte (p : BitVec 2) (ss : List Byte) (rx : Receiver) :
    rx.process (wireAddrByte p :: ss) = rx.store p.toNat ss := by
  rw [Receiver.process, decodeFrame_wireAddrByte]

/-- DCTRL is a display-control command, of its own brightness (R20, R66). -/
theorem process_dctrl {dctrl : Byte} (h : dctrl.extractLsb' 3 5 = 0b10001#5) (rx : Receiver) :
    rx.process [dctrl] = rx.setBright (dctrl.extractLsb' 0 3) := by
  have hcommand : ∀ c : Byte, c.extractLsb' 3 5 = 0b10001#5 → c &&& 0xF8 = 0x88 := by decide +kernel
  conv_lhs => rw [← wireDispctrlByte_of_command dctrl (hcommand dctrl h)]
  rw [Receiver.process, decodeFrame_wireDispctrlByte]

/-- The receiver after frames, in order. -/
def Receiver.processAll (fs : List (List Byte)) (rx : Receiver) : Receiver := fs.foldl (fun rx f => rx.process f) rx

theorem Receiver.processAll_append (fs gs : List (List Byte)) (rx : Receiver) :
    rx.processAll (fs ++ gs) = (rx.processAll fs).processAll gs := List.foldl_append

/-- The receiver after the frames of a WRITEALL to position 0. -/
theorem processAll_allFrames {dctrl : Byte} (h : dctrl.extractLsb' 3 5 = 0b10001#5) (d0 d1 d2 d3 : Byte) (rx : Receiver) :
    rx.processAll (allFrames dctrl 0xC0 [d0, d1, d2, d3]) = { rx with
      mode := .auto, ram := #v[d0, d1, d2, d3], dispOn := true, dispBright := dctrl.extractLsb' 0 3 } := by
  have haddr := process_wireAddrByte 0 [d0, d1, d2, d3] (rx.setMode .auto)
  rw [store_auto rfl (Nat.le_refl 4)] at haddr
  rw [Receiver.processAll, allFrames, List.foldl_cons, List.foldl_cons, List.foldl_cons, List.foldl_nil,
    process_wireDataAuto, show (0xC0 : Byte) = wireAddrByte 0 from rfl, haddr, process_dctrl h]
  rfl

/-- The receiver after a WRITEONE. -/
def Receiver.showOne (bright : BitVec 3) (pos seg : Byte) (rx : Receiver) : Receiver :=
  { rx with mode := .fixed, ram := rx.ram.setIfInBounds pos.toNat seg, dispOn := true, dispBright := bright }

theorem processAll_oneFrames {dctrl pos : Byte} (h : dctrl.extractLsb' 3 5 = 0b10001#5) (hp : pos ≤ 3) (seg : Byte)
    (rx : Receiver) : rx.processAll (oneFrames dctrl pos seg) = rx.showOne (dctrl.extractLsb' 0 3) pos seg := by
  have hcommand : ∀ pos : Byte, pos ≤ 3 → 0xC0 ||| pos = wireAddrByte (pos.setWidth 2) ∧
      (pos.setWidth 2).toNat = pos.toNat := by decide +kernel
  obtain ⟨hbyte, hnat⟩ := hcommand pos hp
  rw [Receiver.processAll, oneFrames, List.foldl_cons, List.foldl_cons, List.foldl_cons, List.foldl_nil,
    process_wireDataFixed, hbyte, process_wireAddrByte, hnat, store_single hp seg, process_dctrl h]
  rfl

/-- Acknowledged frames from a settled bus: the receiver has processed them all and rests. -/
theorem State.sendFrames_shown {n : Nat} {fs : List (List Byte)} {s : State} (hs : Settled s.bus) (hn : fs ≠ [])
    (hf : ∀ f ∈ fs, f ≠ []) (hlen : (fs.map List.length).sum = n) (ha : ∀ a ∈ upcoming n s.bus, a = .low) :
    Settled (s.sendFrames fs).bus ∧ (s.sendFrames fs).bus.rx = (s.bus.rx.processAll fs).resting := by
  subst hlen
  exact (sendFrames_heard s.params.bitDelayUs fs hs hf ha hn).symm

/-- Settles O33: the work is the three frames, and the second starts at position 0 in the mode of the first. -/
theorem writeallIsShown : Obligations.WriteallIsShown := by
  intro s d0 d1 d2 d3 hr hs hacmd hctrl ha
  obtain ⟨hsettled, hrx⟩ := State.sendFrames_shown (n := 7) (s := s.loadSegbuf d0 d1 d2 d3)
    (fs := allFrames s.dctrl s.acmd [s.encodeCode d0, s.encodeCode d1, s.encodeCode d2, s.encodeCode d3]) hs
    (by simp [allFrames]) (by simp [allFrames]) rfl ha
  refine ⟨_, exec_writeall hr d0 d1 d2 d3, hsettled, hrx.trans ?_⟩
  rw [hacmd, processAll_allFrames hctrl]
  rfl

/-- Settles O34: the work is the three frames of one position. -/
theorem writeoneIsShown : Obligations.WriteoneIsShown := by
  intro s pos d hr hs hp hctrl ha
  obtain ⟨hsettled, hrx⟩ := State.sendFrames_shown (n := 4) (s := s) (fs := oneFrames s.dctrl pos (s.encodeCode d)) hs
    (by simp [oneFrames]) (fun _ => ne_nil_of_mem_oneFrames) rfl ha
  refine ⟨_, exec_writeone hr pos d (BitVec.not_lt.2 hp), hsettled, hrx.trans ?_⟩
  rw [processAll_oneFrames hctrl hp]
  rfl

/-! ### DISPNUM as the display shows it (R101) -/

/-- The segment byte at the `i`-th position from the right, the minus glyph's among them. -/
def State.shownSegment (neg : Bool) (m : Nat) (s : State) (i : Nat) : Byte :=
  Machine.encodeCode s.params s.point (if neg ∧ i = 3 then Config.minusCode else numeralCode m i)

/-- With or without the minus glyph, the frames of DISPNUM write positions 3 to 0 (R101, R103). -/
theorem State.numberFrames_eq (neg : Bool) (m : Nat) (s : State) :
    s.numeralFrames neg (some m) ++ s.minusFrames neg =
      oneFrames s.dctrl 3 (s.shownSegment neg m 0) ++ (oneFrames s.dctrl 2 (s.shownSegment neg m 1) ++
        (oneFrames s.dctrl 1 (s.shownSegment neg m 2) ++ oneFrames s.dctrl 0 (s.shownSegment neg m 3))) := by
  cases neg <;> rfl

/-- The receiver after a write of each position. -/
theorem showOne_four (bright : BitVec 3) (d0 d1 d2 d3 : Byte) (rx : Receiver) :
    (((rx.showOne bright 3 d3).showOne bright 2 d2).showOne bright 1 d1).showOne bright 0 d0 =
      { rx with mode := .fixed, ram := #v[d0, d1, d2, d3], dispOn := true, dispBright := bright } := by
  have hram : (((rx.ram.setIfInBounds 3 d3).setIfInBounds 2 d2).setIfInBounds 1 d1).setIfInBounds 0 d0 =
      #v[d0, d1, d2, d3] := by
    ext j hj
    interval_cases j <;> simp
  rw [← hram]
  rfl

/-- The receiver after the frames of DISPNUM for a magnitude. -/
theorem processAll_numberFrames {s : State} (h : s.dctrl.extractLsb' 3 5 = 0b10001#5) (neg : Bool) (m : Nat)
    (rx : Receiver) : rx.processAll (s.numeralFrames neg (some m) ++ s.minusFrames neg) = { rx with
      mode := .fixed
      ram := #v[s.shownSegment neg m 3, s.shownSegment neg m 2, s.shownSegment neg m 1, s.shownSegment neg m 0]
      dispOn := true
      dispBright := s.dctrl.extractLsb' 0 3 } := by
  rw [State.numberFrames_eq, Receiver.processAll_append, Receiver.processAll_append, Receiver.processAll_append,
    processAll_oneFrames h (by decide), processAll_oneFrames h (by decide), processAll_oneFrames h (by decide),
    processAll_oneFrames h (by decide), showOne_four]

/-- Settles O35: in range the work is POINT and one WRITEONE-shaped write at each position. -/
theorem dispnumIsShown : Obligations.DispnumIsShown := by
  intro s q dp minus hr hs hd hm hctrl ha
  have hin : inRange s.params.hostIntBits dp (.finite q) = some (rounded q dp) := if_pos hm
  have hneg : (minus && negative (.finite q)) = decide (minus = true ∧ q < 0) := by simp [negative]
  obtain ⟨hsettled, hrx⟩ := State.sendFrames_shown (s := s.setPoint (pointOfPlaces dp)) hs
    (by simp [State.numeralFrames_ne_nil]) (fun _ => State.ne_nil_of_mem_frames)
    (State.numberFrames_bytes (minus = true ∧ q < 0 : Bool) (some (rounded q dp)) _) ha
  rw [processAll_numberFrames (s := s.setPoint (pointOfPlaces dp)) hctrl] at hrx
  refine ⟨_, exec_dispnum hr _ dp minus (by tauto), ?_⟩
  rw [State.renderValue_sends, hin, hneg]
  refine ⟨hsettled, congrArg Receiver.mode hrx, congrArg Receiver.dispOn hrx, congrArg Receiver.dispBright hrx,
    (congrArg Receiver.ram hrx).trans ?_⟩
  simp [Receiver.resting, Receiver.withLine, State.shownSegment, pointOfPlaces]

end Sys2Proof.Machine
end

section
/-!
Reset, CONSTRUCT and the idle machine (10_state.md section 8, 42_display_controller.md section 2, 60_exceptions.md): the
values at reset, the pads and the receiver after CONSTRUCT, and the completeness of the step.
-/

namespace Sys2Proof.Machine

open Sys2Proof.Safety

/-! ### Reset (R38, R110) -/

/-- Settles O1: the values are those `State.reset` is written with. -/
theorem resetHoldsDefaultsUnconstructed : Obligations.ResetHoldsDefaultsUnconstructed :=
  ⟨rfl, rfl, rfl, rfl, rfl, rfl, rfl, rfl, rfl, rfl⟩

/-- Settles O45: the pads at reset are those of R38, which the receiver has heard, and no pin is bound. -/
theorem resetMeetsInvariant : Obligations.ResetMeetsInvariant where
  idle := rfl
  control := by decide
  collecting := Nat.zero_le 8
  heard := ⟨rfl, rfl⟩
  rest := .inl rfl
  pins := fun h => by cases h
  silent := fun _ => ⟨rfl, rfl⟩

/-! ### CONSTRUCT (R90) -/

/-- On an idle unconstructed block CONSTRUCT of two pins binds them. -/
theorem exec_construct {s : State} (hs : s.seq = .idle) (hc : s.constructed = false) {clk dio : PinId}
    (hd : clk ≠ dio) : exec (.construct clk dio) s = .next { s.bindPins clk dio with ret := .none } := by
  simp only [exec, execConstruct, State.ifIdle, hs, hc, hd, Bool.false_eq_true, if_false]
  rw [State.finish, ← hs]
  rfl

/-- On lines that are those of R38 already, and heard, CONSTRUCT is not heard (entry 4). -/
theorem State.bindPins_rx {s : State} (hp : s.bus.pads = freshPads) (hh : Heard s.bus) (clk dio : PinId) :
    (s.bindPins clk dio).bus.rx = s.bus.rx := by
  obtain ⟨hclk, hdio⟩ := hh
  rw [hp] at hclk hdio
  have hlisten (n : Nat) : s.bus.rx.listen n freshPads = s.bus.rx := listen_of_heard hclk hdio rfl n
  have hrx : (s.bindPins clk dio).bus.rx =
      (s.bus.rx.listen s.bus.trace.length freshPads).listen (s.bus.trace ++ [Event.coe true]).length freshPads := by
    simp only [State.bindPins, hp]
    rfl
  rw [hrx, hlisten, hlisten]

/-- Settles O2: the two refusals, and the registers, the two events and the pads of a construction. -/
theorem constructBindsPinsOnce : Obligations.ConstructBindsPinsOnce := by
  refine fun s clk dio hs => ⟨rfl, fun hc => exec_construct_constructed hs hc clk dio, fun hc hd => ?_, fun hc hd =>
    ⟨(s.bindPins clk dio).bus.rx, s.bus.pads.pull, s.bus.shift, s.bus.bitcnt, s.bus.ack, s.segbuf,
      fun hp hh => State.bindPins_rx hp hh clk dio, ?_⟩⟩
  · rw [← hd]
    exact exec_construct_samePin hs hc clk
  · rw [exec_construct hs hc hd, State.bindPins]
    simp [Bus.emit, Bus.drive, displayControl, addressCommand, wireDataAutoByte]

/-! ### The idle machine (R109) -/

theorem ifIdle_of_idle {s : State} (hs : s.seq = .idle) (k : Host.Outcome State Fault Refusal) : s.ifIdle k = k := by
  simp only [State.ifIdle, hs]

/-- An idle block takes every host operation: it refuses it with a mark or runs it. -/
theorem accept_idle {i : Instr} {check : Option Reason} {body : State → State} {result : State → Ret} {s : State}
    (hs : s.seq = .idle) : ∃ t, s.accept i check body result = .next t := by
  cases hc : s.constructed with
  | false => exact ⟨_, accept_unconstructed hs hc⟩
  | true =>
    cases check with
    | some r => exact ⟨_, accept_check ⟨hs, hc⟩⟩
    | none => exact ⟨_, accept_runs ⟨hs, hc⟩⟩

theorem exec_idle (i : Instr) {s : State} (hs : s.seq = .idle) : ∃ t, exec i s = .next t := by
  cases i with
  | construct clk dio =>
    cases hc : s.constructed with
    | true => exact ⟨_, exec_construct_constructed hs hc clk dio⟩
    | false =>
      by_cases hd : clk = dio
      · subst hd
        exact ⟨_, exec_construct_samePin hs hc clk⟩
      · exact ⟨_, exec_construct hs hc hd⟩
  | wireDataAuto | wireDataFixed | wireAddr | wireDispctrl => exact ⟨_, rfl⟩
  | _ =>
    simp only [exec, execInit, execConfigure, execSetpoint, execWriteall, execWriteone, execClear, execDispnum,
      execDisptext, execStart, execStop, execWritebyte, execBitdelay, execEncode]
    exact accept_idle hs

/-- Only an operation of the host port can have operands of another shape: a frame has none (R57). -/
theorem op_of_operandShape {p : Presented} (h : decode p = .error .operandShape) : ∃ o, p = .op o := by
  cases p with
  | op o => exact ⟨o, rfl⟩
  | frame bytes =>
    rw [decode] at h
    cases bytes with
    | nil => cases h
    | cons c payload =>
      rw [decodeFrame] at h
      split_ifs at h <;> cases h

/-- Settles O40, by what the decoder makes of what is presented. -/
theorem idleMachineAlwaysSteps : Obligations.IdleMachineAlwaysSteps := by
  intro s hs
  cases hh : s.host with
  | nil => exact .inl ⟨s, stepRunsDecodedInstruction.2 s hh⟩
  | cons p rest =>
    have hfetch : s.fetch = some (p, { s with host := rest }) := by simp only [State.fetch, hh]
    have hstep : step s = runPresented p { s with host := rest } := by simp only [step, hfetch]
    rw [hstep]
    unfold runPresented
    cases hd : decode p with
    | ok i => exact .inl (exec_idle i hs)
    | error e =>
      cases e with
      | unknownOp => exact .inl ⟨_, ifIdle_of_idle hs _⟩
      | operandShape =>
        obtain ⟨o, rfl⟩ := op_of_operandShape hd
        exact .inr ⟨o, rest, rfl, hd, rfl⟩
      | emptyFrame => exact .inl ⟨_, rfl⟩
      | foreignFrame => exact .inl ⟨_, rfl⟩

end Sys2Proof.Machine
end
